-- ==== Sys2Proof/Word.lean ====
section
/-! DEFINITION. The word of the hardware (00_scope.md R5 `WORD`, R6): an unsigned 32-bit value, and the 8-bit code of a
micro-operation (30_encoding.md R60). -/

namespace Sys2Proof

/-- A `u32` of R6. -/
abbrev Word := BitVec 32

/-- An 8-bit value: a format-U code (R60), or one byte of a raw buffer that the collaborator packs (R47). -/
abbrev Byte := BitVec 8

end Sys2Proof
end

