-- ==== Sys2Proof/Config.lean ====
section
/-! DEFINITION. What is fixed for one machine (00_scope.md R5: the open parameters and `FIRST_WORD_FOLD`), and the free
values of words that nothing has written. -/

namespace Sys2Proof

/-- The five disjoint memory spaces of 20_memory.md R40. -/
inductive Space where
  | key | seed | work | h1 | out
  deriving DecidableEq, Repr

/-- The parameters that R5 and 10_state.md R17 leave to a model. A capacity of `none` is "unbounded" (R5, D6).
`firstWordFold = false` is this hardware; `true` is the other reading of the source, R135 (log 4). -/
structure Config where
  firstWordFold : Bool
  lanes : Nat
  keyWords : Option Nat
  seedWords : Option Nat
  workWords : Option Nat
  h1Words : Option Nat
  outWords : Option Nat
  deriving DecidableEq, Repr

/-- DESIGN CHOICE (log 4): word 0 not folded, as R5 fixes it; one lane; every capacity unbounded, as R59 allows. -/
def Config.standard : Config :=
  ⟨false, 1, none, none, none, none, none⟩

/-- The capacity in words of a space. -/
def Config.capacity (c : Config) : Space → Option Nat
  | .key => c.keyWords
  | .seed => c.seedWords
  | .work => c.workWords
  | .h1 => c.h1Words
  | .out => c.outWords

/-- FREE VALUE (log 2, log 9): what a read yields where the spec gives no value. The arguments are the space, the number of
the draw (a counter in State) and the word index. It has no body: nothing can be proved of it. -/
opaque Config.freeWord : Space → Nat → Nat → Word

end Sys2Proof
end

