-- ==== Sys2Proof/Syntax.lean ====
section
/-! DEFINITION. The instructions: one constructor per row of spec/opcode_table.json. No instruction has an operand
(30_encoding.md R61, R62, R65). -/

namespace Sys2Proof

/-- The one command (format C, R63) and the eighteen micro-operations (format U, R64). `endJob` is the row END. -/
inductive Instr where
  | hash
  | check | copy
  | kmul1 | krot | kmul2
  | hinit
  | hxor | hrot | hmul5 | hadd
  | hlen
  | fsx16a | fmula | fsx13 | fmulb | fsx16b
  | hout
  | endJob
  deriving DecidableEq, Repr

end Sys2Proof
end

