-- ==== Sys2Proof/WellFormed.lean ====
section
/-! DEFINITION. What a legal term is. An instruction has no operand, so every instruction by itself is well formed
(30_encoding.md R65); the checks are on the parameters, on a word index, and on where an instruction may appear. -/

namespace Sys2Proof

/-- HASH is the one format-C instruction; all others are micro-operations (R60). -/
def Instr.isUop : Instr → Bool
  | .hash => false
  | .check | .copy | .kmul1 | .krot | .kmul2 | .hinit | .hxor | .hrot | .hmul5 | .hadd | .hlen => true
  | .fsx16a | .fmula | .fsx13 | .fmulb | .fsx16b | .hout | .endJob => true

/-- There is no operand to check (R61, R62): well formed means only that it is one of the nineteen. -/
abbrev Instr.WellFormed (_ : Instr) : Prop := True

/-- R5: `LANES` is at least 1. -/
abbrev Config.WellFormed (c : Config) : Prop := 1 ≤ c.lanes

/-- A word index exists in a space exactly when it is below the capacity (R59). -/
def Config.holds (c : Config) (sp : Space) (a : Nat) : Bool :=
  match c.capacity sp with
  | none => true
  | some n => decide (a < n)

/-- A micro-program is made of uops only: a command never stands in `UPC` (R60, R70). -/
abbrev MicroProgram.WellFormed (p : List Instr) : Prop := ∀ i ∈ p, i.isUop = true

end Sys2Proof
end

