-- ==== Sys2Proof/Decode.lean ====
section
/-! DEFINITION. Decoding and encoding: command words (30_encoding.md R61, R63, R66), micro-operation codes (R62, R64, R67)
and host register numbers (R72). -/

namespace Sys2Proof

/-- An instruction as it appears: a word written to `CMD`, or a value of `UPC` (R60). Where it appears tells its length. -/
inductive Code where
  | command (w : Word)
  | uop (b : Byte)
  deriving DecidableEq, Repr

/-- Why a code is no instruction. -/
inductive DecodeError where
  /-- R66: a command word other than `0x00000001`. -/
  | reservedCommand (w : Word)
  /-- R64: `0x00`, `NONE`, is not a uop. -/
  | notAUop
  /-- R67: any other 8-bit value that is not one of the eighteen codes. -/
  | reservedUop (b : Byte)
  deriving DecidableEq, Repr

/-- R61: bits 31:8 `ZERO`. -/
def commandZero (w : Word) : BitVec 24 := w.extractLsb' 8 24

/-- R61: bits 7:0 `OPC`. -/
def commandOpc (w : Word) : Byte := w.extractLsb' 0 8

/-- R63, R66: `ZERO` must be 0, and the one defined `OPC` is `0x01`. -/
def decodeCommand (w : Word) : Except DecodeError Instr :=
  if commandZero w = 0#24 ∧ commandOpc w = 0x01#8 then .ok .hash else .error (.reservedCommand w)

/-- R62: bits 7:4 `GRP`. -/
def uopGroup (b : Byte) : BitVec 4 := b.extractLsb' 4 4

/-- R62: bits 3:0 `FN`. -/
def uopFunction (b : Byte) : BitVec 4 := b.extractLsb' 0 4

/-- R64, by group and function; R67 for the rest. -/
def decodeUop (b : Byte) : Except DecodeError Instr :=
  match (uopGroup b).toNat, (uopFunction b).toNat with
  | 0, 0 => .error .notAUop
  | 0, 1 => .ok .check
  | 0, 2 => .ok .copy
  | 1, 0 => .ok .kmul1
  | 1, 1 => .ok .krot
  | 1, 2 => .ok .kmul2
  | 2, 0 => .ok .hinit
  | 3, 0 => .ok .hxor
  | 3, 1 => .ok .hrot
  | 3, 2 => .ok .hmul5
  | 3, 3 => .ok .hadd
  | 4, 0 => .ok .hlen
  | 5, 0 => .ok .fsx16a
  | 5, 1 => .ok .fmula
  | 5, 2 => .ok .fsx13
  | 5, 3 => .ok .fmulb
  | 5, 4 => .ok .fsx16b
  | 6, 0 => .ok .hout
  | 7, 0 => .ok .endJob
  | _, _ => .error (.reservedUop b)

/-- Total on every code of either format. -/
def decode : Code → Except DecodeError Instr
  | .command w => decodeCommand w
  | .uop b => decodeUop b

/-- A command word of R61 from its two fields. -/
def commandWord (zero : BitVec 24) (opc : Byte) : Word := zero ++ opc

/-- A uop code of R62 from its two fields. -/
def uopCode (grp fn : BitVec 4) : Byte := grp ++ fn

/-- The code of each instruction (R63, R64). -/
def encode : Instr → Code
  | .hash => .command (commandWord 0 0x01)
  | .check => .uop (uopCode 0 1)
  | .copy => .uop (uopCode 0 2)
  | .kmul1 => .uop (uopCode 1 0)
  | .krot => .uop (uopCode 1 1)
  | .kmul2 => .uop (uopCode 1 2)
  | .hinit => .uop (uopCode 2 0)
  | .hxor => .uop (uopCode 3 0)
  | .hrot => .uop (uopCode 3 1)
  | .hmul5 => .uop (uopCode 3 2)
  | .hadd => .uop (uopCode 3 3)
  | .hlen => .uop (uopCode 4 0)
  | .fsx16a => .uop (uopCode 5 0)
  | .fmula => .uop (uopCode 5 1)
  | .fsx13 => .uop (uopCode 5 2)
  | .fmulb => .uop (uopCode 5 3)
  | .fsx16b => .uop (uopCode 5 4)
  | .hout => .uop (uopCode 6 0)
  | .endJob => .uop (uopCode 7 0)

/-- The instruction of an opcode-table word: 32 bits for format C, 8 bits for format U (R60). No other length exists, and a
number too large for its length is no word (log 30). -/
def decodeTableWord (nbits w : Nat) : Option Instr :=
  if 2 ^ nbits ≤ w then none
  else if nbits = 32 then (decode (.command (BitVec.ofNat 32 w))).toOption
  else if nbits = 8 then (decode (.uop (BitVec.ofNat 8 w))).toOption
  else none

/-- The eight registers of the host interface (R72). -/
inductive HostReg where
  | cmd | status | dimS | dimK | dimL | seedN | ndim | idx
  deriving DecidableEq, Repr

/-- The 3-bit register number of R72, read. All eight numbers are used. -/
def HostReg.ofNumber (n : BitVec 3) : HostReg :=
  match n.toNat with
  | 0 => .cmd
  | 1 => .status
  | 2 => .dimS
  | 3 => .dimK
  | 4 => .dimL
  | 5 => .seedN
  | 6 => .ndim
  | _ => .idx

/-- The 3-bit register number of R72, written. -/
def HostReg.number : HostReg → BitVec 3
  | .cmd => 0
  | .status => 1
  | .dimS => 2
  | .dimK => 3
  | .dimL => 4
  | .seedN => 5
  | .ndim => 6
  | .idx => 7

end Sys2Proof
end

