-- ==== Sys2Proof/Machine/State.lean ====
section
/-! DEFINITION. The state of the machine (10_state.md section 1), the inputs from outside, the reasons to stop, and the state
after reset (R34). Plain data throughout. -/

namespace Sys2Proof.Machine

/-- The words of one space that hold a value: (word index, word), indices strictly rising (`Memory.wf`). The spec's smallest
addressable unit is the 32-bit word (20_memory.md R40, R49), so the cells are words, not bytes (log 1). A word that is not
listed holds no value (70_reset_and_hazards.md R201, log 2). -/
abbrev Memory := List (Nat × Word)

/-- The canonical form: word indices strictly rising. Equal memories are then equal lists. -/
abbrev Memory.wf (m : Memory) : Prop := m.Pairwise fun c d => c.1 < d.1

/-- The four values of `STATUS.STATE` (R33). -/
inductive JobState where
  | idle | busy | done | error
  deriving DecidableEq, Repr

/-- The host actions of 30_encoding.md R70. `rdk`, `rds` and `wro` are the accesses that the table of 10_state.md section 1
grants and R70 has no name for (log 12). -/
inductive HostAction where
  /-- `WRR n, v`: write a register. -/
  | wrr (n : HostReg) (v : Word)
  /-- `RDR n`: read a register. -/
  | rdr (n : HostReg)
  /-- `WRK a, v`: write a word of `KEY`. -/
  | wrk (a : Nat) (v : Word)
  /-- `WRS a, v`: write a word of `SEED`. -/
  | wrs (a : Nat) (v : Word)
  /-- Write a word of `OUT`. -/
  | wro (a : Nat) (v : Word)
  /-- Read a word of `KEY`. -/
  | rdk (a : Nat)
  /-- Read a word of `SEED`. -/
  | rds (a : Nat)
  /-- `RDO a`: read a word of `OUT`. -/
  | rdo (a : Nat)
  /-- `WAIT`: repeat `RDR STATUS` until `STATE` is not BUSY. -/
  | wait
  deriving DecidableEq, Repr

/-- What may happen next in the world outside, in order. `slot` lets the sequencer perform one uop before the host acts
again, so that every interleaving of host and sequencer is some list (log 5). -/
inductive Event where
  | slot
  | reset
  | host (a : HostAction)
  deriving DecidableEq, Repr

/-- Why the machine stops with a fault. -/
inductive Fault where
  /-- Raised by the sequencer when `UPC` holds a reserved code (R67, 93_implementation_defined.md U5). Safe: unreachable. -/
  | reservedUopCode (b : Byte)
  /-- Raised by the sequencer when `STATE` is BUSY and `UPC` is `0x00`, which R20 rules out (log 16). Safe: unreachable. -/
  | noUopWhileBusy
  /-- Raised by a host access, or by a uop, to a word index that does not exist in the space (R59, log 15). Safe: it stops. -/
  | beyondCapacity (sp : Space)
  deriving DecidableEq, Repr

/-- Why there is no meaning. -/
inductive Refusal where
  /-- Raised by the dispatch for an instruction that has no meaning yet. Safe: it stops. -/
  | notModelled (mnemonic : String)
  /-- Raised by a host write of a reserved word to `CMD` (R66, U3: refuse). Safe: it stops. -/
  | reservedCommand (w : Word)
  /-- Raised by HASH while `STATE` is BUSY (R100 corner case (a), R210, U2: refuse). Safe: it stops. -/
  | commandWhileBusy
  /-- Raised by a host write of registers 1 to 7 while BUSY (R209, U4; R23, D19: refuse; log 11). Safe: it stops. -/
  | registerWriteWhileBusy (n : HostReg)
  /-- Raised by a host write of any word of a memory space while BUSY (R23, D19: refuse), and of a word that the job uses
  until a `STATUS` read has shown the job's end (R207, R208, U1, U4: refuse; log 8). Safe: it stops. -/
  | memoryWriteWhileJobOpen (sp : Space)
  /-- Raised by a host read of registers 0 and 2 to 6 while BUSY (R23, R210, D19: refuse; log 28). Safe: it stops. -/
  | registerReadWhileBusy (n : HostReg)
  /-- Raised by a host read while BUSY of a word of `KEY` or `SEED`, or of `OUT` beyond the job's `S*K` words (R23, R210, D19:
  refuse; log 10). Safe: it stops. -/
  | memoryReadWhileBusy (sp : Space)
  deriving DecidableEq, Repr

/-- How many words of each of the host's spaces, from word 0 on, are frozen since a HASH (R207, R208; log 8). -/
structure Frozen where
  key : Nat
  seed : Nat
  out : Nat
  deriving DecidableEq, Repr

/-- Everything the spec gives the machine, and four fields of the model's own (`cfg`, `events`, `reads`, `draws`). -/
structure State where
  /-- The parameters of R5 (log 4). No step changes them. -/
  cfg : Config
  /-- `KEY`, R41. -/
  key : Memory
  /-- `SEED`, R42. -/
  seed : Memory
  /-- `WORK`, R15, R43. -/
  work : Memory
  /-- `H1`, R11, R44. -/
  h1 : Memory
  /-- `OUT`, R46. -/
  out : Memory
  /-- `DIM_S`, R26. -/
  dimS : Word
  /-- `DIM_K`, R27. -/
  dimK : Word
  /-- `DIM_L`, R28. -/
  dimL : Word
  /-- `SEED_N`, R29. -/
  seedN : Word
  /-- `NDIM.KEY_NDIM`, R30. -/
  keyNdim : BitVec 4
  /-- `NDIM.SEED_NDIM`, R30. -/
  seedNdim : BitVec 4
  /-- `IDX`, R21, R31. -/
  idx : Word
  /-- `STATUS.UPC`, R20. -/
  upc : Byte
  /-- `STATUS.STATE`, R33. -/
  job : JobState
  /-- `STATUS.CAUSE`, R25: bit 0 RANK, bit 1 SEED_COUNT, bit 2 WORD_LEN, bit 3 CAPACITY. -/
  cause : BitVec 4
  /-- The words that a job uses and that the host must leave alone until a `STATUS` read shows the job's end
  (R207, R208; log 8). -/
  frozen : Frozen
  /-- The outside world's next actions, first one first (log 5). -/
  events : List Event
  /-- What the host's reads returned, newest first (log 21). -/
  reads : List Word
  /-- How many times a free value may have been drawn (log 3). -/
  draws : Nat
  deriving DecidableEq, Repr

/-- R34: every register at the value of the table, no word of any space holding a value. The last five fields are the
model's own or implied (log 3, 4, 5, 8, 21). -/
def State.reset : State where
  cfg := Config.standard
  key := []
  seed := []
  work := []
  h1 := []
  out := []
  dimS := 0
  dimK := 0
  dimL := 0
  seedN := 0
  keyNdim := 0
  seedNdim := 0
  idx := 0
  upc := 0x00
  job := .idle
  cause := 0
  frozen := ⟨0, 0, 0⟩
  events := []
  reads := []
  draws := 0

/-- What one step or one meaning answers. -/
abbrev Result := Host.Outcome State Fault Refusal

end Sys2Proof.Machine
end

