-- ==== Sys2Proof/Machine/Alu.lean ====
section
/-! DEFINITION. The arithmetic primitives of one lane (40_alu_primitives.md R80 to R87) and the hardwired constants
(00_scope.md R5, 10_state.md R13). Each result is the exact one, narrowed to 32 bits at the end (R80). -/

namespace Sys2Proof.Machine

/-- R80: the mathematical result reduced modulo 2^32. -/
def narrow (n : Nat) : Word := BitVec.ofNat 32 n

/-- R81. -/
def mul32 (a b : Word) : Word := narrow (a.toNat * b.toNat)

/-- R82. -/
def add32 (a b : Word) : Word := narrow (a.toNat + b.toNat)

/-- R83. -/
def xor32 (a b : Word) : Word := a ^^^ b

/-- R84. -/
def or32 (a b : Word) : Word := a ||| b

/-- R85. The amounts 0 to 31 are the whole domain (93_implementation_defined.md U9). -/
def shl32 (x : Word) (r : Nat) (_ : r ≤ 31 := by decide) : Word := narrow (x.toNat * 2 ^ r)

/-- R86: the logical shift; zeros enter at bit 31. The amounts 0 to 31 are the whole domain (U9). -/
def shr32 (x : Word) (r : Nat) (_ : r ≤ 31 := by decide) : Word := narrow (x.toNat / 2 ^ r)

/-- R87: exactly the source's definition. The amounts 1 to 31 are the whole domain (U9). -/
def rotl32 (x : Word) (r : Nat) (h : 1 ≤ r ∧ r ≤ 31 := by decide) : Word :=
  or32 (shl32 x r h.2) (shr32 x (32 - r) (by omega))

/-- `C1` of R5. -/
def c1 : Word := 0xCC9E2D51
/-- `C2` of R5. -/
def c2 : Word := 0x1B873593
/-- `M5` of R5. -/
def m5 : Word := 5
/-- `NADD` of R5. -/
def nadd : Word := 0xE6546B64
/-- `FA` of R5. -/
def fa : Word := 0x85EBCA6B
/-- `FB` of R5. -/
def fb : Word := 0xC2B2AE35

/-- 44_finalize.md R147: the byte length of a key of `l` words, reduced to 32 bits. -/
def len32 (l : Nat) : Word := narrow (4 * l)

end Sys2Proof.Machine
end

