-- ==== Sys2Proof/Machine/Operands.lean ====
section
/-! DEFINITION. The implicit operands (30_encoding.md R65): the dimensions of the job, the index spaces Idx2 and Idx3
(00_scope.md R7, 45_job_function.md R166), the word-index functions (20_memory.md R45), and how many words of a space a uop
touches (R54, R59). All on natural numbers, never wrapping. -/

namespace Sys2Proof.Machine

/-- `S`: the value of `DIM_S` (R26). -/
def State.S (s : State) : Nat := s.dimS.toNat
/-- `K`: the value of `DIM_K` (R27). -/
def State.K (s : State) : Nat := s.dimK.toNat
/-- `L`: the value of `DIM_L` (R28). -/
def State.L (s : State) : Nat := s.dimL.toNat

/-- R45: word `l` of key `k` of group `g` in `KEY` and `WORK`. -/
def State.a3 (s : State) (g k l : Nat) : Nat := (g * s.K + k) * s.L + l
/-- R45: key `k` of group `g` in `H1` and `OUT`. -/
def State.a2 (s : State) (g k : Nat) : Nat := g * s.K + k
/-- R45: group `g` in `SEED`. -/
def State.a1 (_ : State) (g : Nat) : Nat := g

/-- The pairs `(g, k)` with `g < S`, `k < K` (R7), in the order of `a2`. The order cannot be observed (R167). -/
def State.idx2 (s : State) : List (Nat × Nat) :=
  (List.range (s.S * s.K)).map fun p => (p / s.K, p % s.K)

/-- The triples `(g, k, l)` with `g < S`, `k < K`, `l < L` (R7), in the order of `a3`. -/
def State.idx3 (s : State) : List (Nat × Nat × Nat) :=
  (List.range (s.S * s.K * s.L)).map fun p => (p / s.L / s.K, p / s.L % s.K, p % s.L)

/-- The words of `H1` and `OUT` that a job uses (R59). -/
def State.words2 (s : State) : Nat := s.S * s.K
/-- The words of `KEY` and `WORK` that a job uses (R59). -/
def State.words3 (s : State) : Nat := s.S * s.K * s.L
/-- The words of `SEED` that HINIT reads (R54): `S`, or none when there is no key to initialise. -/
def State.seedWords (s : State) : Nat := if s.S * s.K = 0 then 0 else s.S
/-- How many words `WORK` needs for word `l` of every key to exist: up to that of the last key (R45, R54). -/
def State.reach (s : State) (l : Nat) : Nat := if s.S * s.K = 0 then 0 else s.a3 (s.S - 1) (s.K - 1) l + 1

end Sys2Proof.Machine
end

