-- ==== Sys2Proof/Machine/Ops.lean ====
section
/-! DEFINITION. The named operations over memory and registers that the meanings share: word access (20_memory.md R49),
the `forall` steps of 00_scope.md R7, transfer of control, taking ContractError (60_exceptions.md R188), and reset
(70_reset_and_hazards.md R200 to R202). -/

namespace Sys2Proof.Machine

/-- The value that a word holds, if it holds one. -/
def Memory.read? : Memory → Nat → Option Word
  | [], _ => none
  | (b, w) :: m, a => if a = b then some w else Memory.read? m a

/-- Store a word, keeping the indices strictly rising. -/
def Memory.write : Memory → Nat → Word → Memory
  | [], a, v => [(a, v)]
  | (b, w) :: m, a, v =>
    if a < b then (a, v) :: (b, w) :: m
    else if a = b then (a, v) :: m
    else (b, w) :: Memory.write m a v

/-- Store every listed word, in the order of the list. -/
def Memory.storeAll (m : Memory) (cells : List (Nat × Word)) : Memory :=
  cells.foldl (fun m c => m.write c.1 c.2) m

/-- The contents of a space. -/
def State.space (s : State) : Space → Memory
  | .key => s.key
  | .seed => s.seed
  | .work => s.work
  | .h1 => s.h1
  | .out => s.out

/-- Replace the contents of a space. -/
def State.setSpace (s : State) : Space → Memory → State
  | .key, m => { s with key := m }
  | .seed, m => { s with seed := m }
  | .work, m => { s with work := m }
  | .h1, m => { s with h1 := m }
  | .out, m => { s with out := m }

/-- `MemRead(SPACE:a, 4)` (R7). A word that holds no value yields a free value, the same for every read of that word
within one uop (R201, 93_implementation_defined.md U6: "drawn once"; log 2). -/
def State.load (s : State) (sp : Space) (a : Nat) : Word :=
  ((s.space sp).read? a).getD (Config.freeWord sp s.draws a)

/-- A number of words, from word 0 on, is within the capacity of a space (R59). -/
def State.fits (s : State) (sp : Space) (n : Nat) : Bool :=
  match s.cfg.capacity sp with
  | none => true
  | some cap => decide (n ≤ cap)

/-- The first of the listed spaces that is too small for the words needed of it. -/
def State.shortage (s : State) (need : List (Space × Nat)) : Option Space :=
  (need.find? fun c => !s.fits c.1 c.2).map (·.1)

/-- Go on to `t` if every word needed exists, and fault otherwise (R59, log 15). -/
def State.needing (s : State) (need : List (Space × Nat)) (t : State) : Result :=
  match s.shortage need with
  | some sp => .fault (.beyondCapacity sp)
  | none => .next t

/-- `forall (g,k) in Idx2: dst[a2(g,k)] <- f g k` (R7): every read is of the state before the step. The draw counter
advances once (log 3). -/
def State.forall2 (s : State) (dst : Space) (f : Nat → Nat → Word) : State :=
  { s.setSpace dst ((s.space dst).storeAll (s.idx2.map fun p => (s.a2 p.1 p.2, f p.1 p.2))) with draws := s.draws + 1 }

/-- `forall (g,k,l) in Idx3: dst[a3(g,k,l)] <- f g k l` (R7). -/
def State.forall3 (s : State) (dst : Space) (f : Nat → Nat → Nat → Word) : State :=
  { s.setSpace dst ((s.space dst).storeAll (s.idx3.map fun p => (s.a3 p.1 p.2.1 p.2.2, f p.1 p.2.1 p.2.2))) with
    draws := s.draws + 1 }

/-- `UPC <- target` (R7): the next micro-operation. -/
def State.goto (s : State) (target : Byte) : State := { s with upc := target }

/-- An in-place uop over the working copy (40_alu_primitives.md R89): every word by the same operation. -/
def mapWork (op : Word → Word) (target : Byte) (s : State) : Result :=
  s.needing [(.work, s.words3)] ((s.forall3 .work fun g k l => op (s.load .work (s.a3 g k l))).goto target)

/-- An in-place uop over the running hashes (R89): every hash by the same operation. -/
def mapH1 (op : Word → Word) (target : Byte) (s : State) : Result :=
  s.needing [(.h1, s.words2)] ((s.forall2 .h1 fun g k => op (s.load .h1 (s.a2 g k))).goto target)

/-- TAKING THE EXCEPTION, R188: `raise ContractError(mask)`. Nothing else changes: there is no saved program counter, no
vector and no mode (R185). There is no return instruction (R189): ERROR is left by `beginJob` or by `resetBlock`. -/
def raiseContractError (mask : BitVec 4) (s : State) : State :=
  { s with cause := mask, job := .error, upc := 0x00 }

/-- The state changes of an accepted HASH (R100, R33): it also leaves DONE and ERROR (R189). From now on the words of `KEY`,
`SEED` and `OUT` that the job uses are frozen, beside those that an earlier HASH froze (R207, R208; log 8). -/
def beginJob (s : State) : State :=
  { s with
    job := .busy, cause := 0, idx := 0, upc := 0x01
    frozen := ⟨max s.frozen.key s.words3, max s.frozen.seed s.S, max s.frozen.out s.words2⟩ }

/-- Reset without loss of power (R200 to R202): the registers take their values of R34; `KEY` and `SEED` keep their words,
`OUT` too unless a job was running, and no word of `WORK` and `H1` holds a value any more (log 14). -/
def resetBlock (s : State) : State :=
  { s with
    work := [], h1 := [], out := if s.job = .busy then [] else s.out
    dimS := 0, dimK := 0, dimL := 0, seedN := 0, keyNdim := 0, seedNdim := 0
    idx := 0, upc := 0x00, job := .idle, cause := 0, frozen := ⟨0, 0, 0⟩ }

end Sys2Proof.Machine
end

