-- ==== Sys2Proof/Machine/Finalize.lean ====
section
/-! DEFINITION. Finalization and output: HLEN, FSX16A, FMULA, FSX13, FMULB, FSX16B, HOUT (44_finalize.md). -/

namespace Sys2Proof.Machine

/-- R140: the byte length `LEN32(DIM_L)` (R147). -/
def execHlen (s : State) : Result := mapH1 (fun h => xor32 h (len32 s.L)) 0x50 s

/-- R141. Both reads are the old value (R89). -/
def execFsx16a (s : State) : Result := mapH1 (fun h => xor32 h (shr32 h 16)) 0x51 s

/-- R142. -/
def execFmula (s : State) : Result := mapH1 (fun h => mul32 h fa) 0x52 s

/-- R143. -/
def execFsx13 (s : State) : Result := mapH1 (fun h => xor32 h (shr32 h 13)) 0x53 s

/-- R144. -/
def execFmulb (s : State) : Result := mapH1 (fun h => mul32 h fb) 0x54 s

/-- R145. -/
def execFsx16b (s : State) : Result := mapH1 (fun h => xor32 h (shr32 h 16)) 0x60 s

/-- R152: `OUT <- H1`. -/
def execHout (s : State) : Result :=
  s.needing [(.h1, s.words2), (.out, s.words2)]
    ((s.forall2 .out fun g k => s.load .h1 (s.a2 g k)).goto 0x70)

end Sys2Proof.Machine
end

