-- ==== Sys2Proof/Machine/Fold.lean ====
section
/-! DEFINITION. Initialisation and fold: HINIT, HXOR, HROT, HMUL5, HADD (43_fold.md). -/

namespace Sys2Proof.Machine

/-- R120: `H1 <- WORK[..,0] xor SEED`, `IDX <- 1`. Word 0 is not folded (R127). -/
def initUnfolded (s : State) : Result :=
  s.needing [(.work, s.reach 0), (.seed, s.seedWords), (.h1, s.words2)]
    { s.forall2 .h1 fun g k => xor32 (s.load .work (s.a3 g k 0)) (s.load .seed (s.a1 g)) with
      idx := 1, upc := if 1 < s.L then 0x30 else 0x40 }

/-- R135, HINIT': `H1 <- SEED`, `IDX <- 0`; not this hardware, carried as the configuration value 1 (D2, log 4). -/
def initFolded (s : State) : Result :=
  s.needing [(.seed, s.seedWords), (.h1, s.words2)]
    { s.forall2 .h1 fun g _ => s.load .seed (s.a1 g) with idx := 0, upc := 0x30 }

/-- R120, or R135 where the configuration says so. -/
def execHinit (s : State) : Result :=
  if s.cfg.firstWordFold then initFolded s else initUnfolded s

/-- R122: the word index is `IDX`. -/
def execHxor (s : State) : Result :=
  s.needing [(.work, s.reach s.idx.toNat), (.h1, s.words2)]
    ((s.forall2 .h1 fun g k => xor32 (s.load .h1 (s.a2 g k)) (s.load .work (s.a3 g k s.idx.toNat))).goto 0x31)

/-- R123. -/
def execHrot (s : State) : Result := mapH1 (fun h => rotl32 h 13) 0x32 s

/-- R124. -/
def execHmul5 (s : State) : Result := mapH1 (fun h => mul32 h m5) 0x33 s

/-- R125: the sum, then `IDX <- IDX + 1` and the loop test on natural numbers (R161, log 17). -/
def execHadd (s : State) : Result :=
  s.needing [(.h1, s.words2)]
    { s.forall2 .h1 fun g k => add32 (s.load .h1 (s.a2 g k)) nadd with
      idx := s.idx + 1, upc := if s.idx.toNat + 1 < s.L then 0x30 else 0x40 }

end Sys2Proof.Machine
end

