-- ==== Sys2Proof/Machine/Flags.lean ====
section
/-! DEFINITION. The hardware has no flags (10_state.md R14). The only status it keeps is the `STATUS` word (R25) and the
contract predicate that CHECK records in `CAUSE` (41_job_control.md R102). -/

namespace Sys2Proof.Machine

/-- R181: wrong number of dimensions. -/
def rankViolated (s : State) : Bool := s.keyNdim != 3 || s.seedNdim != 1

/-- R182: the seed count is not the number of groups. -/
def seedCountViolated (s : State) : Bool := s.seedN != s.dimS

/-- R183: the word length is zero. -/
def wordLenViolated (s : State) : Bool := s.dimL == 0

/-- R184 and the last line of R102: some space is too small. -/
def capacityViolated (s : State) : Bool :=
  !s.fits .key s.words3 || !s.fits .work s.words3 || !s.fits .seed s.S || !s.fits .h1 s.words2 || !s.fits .out s.words2

/-- A 4-bit mask from its bits, bit 0 first. -/
def maskOf (b0 b1 b2 b3 : Bool) : BitVec 4 :=
  BitVec.ofNat 4 (b0.toNat + 2 * b1.toNat + 4 * b2.toNat + 8 * b3.toNat)

/-- R102: `violations()`, one bit per kind of violation, all evaluated (R187). -/
def violations (s : State) : BitVec 4 :=
  maskOf (rankViolated s) (seedCountViolated s) (wordLenViolated s) (capacityViolated s)

/-- The code of `STATUS.STATE` (R25). -/
def jobCode : JobState → Nat
  | .idle => 0
  | .busy => 1
  | .done => 2
  | .error => 3

/-- R25: `STATE` in bits 1:0, `CAUSE` in 7:4, `UPC` in 15:8, every other bit 0. -/
def statusWord (s : State) : Word :=
  BitVec.ofNat 32 (jobCode s.job + 2 ^ 4 * s.cause.toNat + 2 ^ 8 * s.upc.toNat)

/-- R30: the `NDIM` word as read; the reserved bits are 0. -/
def ndimWord (s : State) : Word :=
  BitVec.ofNat 32 (s.keyNdim.toNat + 2 ^ 4 * s.seedNdim.toNat)

end Sys2Proof.Machine
end

