-- ==== Sys2Proof/Machine/JobControl.lean ====
section
/-! DEFINITION. HASH, CHECK, COPY, END (41_job_control.md). -/

namespace Sys2Proof.Machine

/-- R100. While BUSY the spec gives HASH no meaning (corner case (a), R210). -/
def execHash (s : State) : Result :=
  if s.job = .busy then .refused .commandWhileBusy else .next (beginJob s)

/-- R101: ContractError is raised here and nowhere else. -/
def execCheck (s : State) : Result :=
  if violations s ≠ 0 then .next (raiseContractError (violations s) s) else .next (s.goto 0x02)

/-- R103: `WORK <- KEY`. -/
def execCopy (s : State) : Result :=
  s.needing [(.key, s.words3), (.work, s.words3)]
    ((s.forall3 .work fun g k l => s.load .key (s.a3 g k l)).goto 0x10)

/-- R104. -/
def execEnd (s : State) : Result :=
  .next { s with job := .done, upc := 0x00 }

end Sys2Proof.Machine
end

