-- ==== Sys2Proof/Machine/WordMix.lean ====
section
/-! DEFINITION. Per-word mixing: KMUL1, KROT, KMUL2 (42_word_mix.md). -/

namespace Sys2Proof.Machine

/-- R110. -/
def execKmul1 (s : State) : Result := mapWork (fun w => mul32 w c1) 0x11 s

/-- R111. -/
def execKrot (s : State) : Result := mapWork (fun w => rotl32 w 15) 0x12 s

/-- R112. -/
def execKmul2 (s : State) : Result := mapWork (fun w => mul32 w c2) 0x20 s

end Sys2Proof.Machine
end

