-- ==== Sys2Proof/Machine/Dispatch.lean ====
section
/-! DEFINITION. One arm per instruction. -/

namespace Sys2Proof.Machine

def exec (i : Instr) (s : State) : Host.Outcome State Fault Refusal :=
  match i with
  | .hash => Sys2Proof.Machine.execHash s
  | .check => Sys2Proof.Machine.execCheck s
  | .copy => Sys2Proof.Machine.execCopy s
  | .kmul1 => Sys2Proof.Machine.execKmul1 s
  | .krot => Sys2Proof.Machine.execKrot s
  | .kmul2 => Sys2Proof.Machine.execKmul2 s
  | .hinit => Sys2Proof.Machine.execHinit s
  | .hxor => Sys2Proof.Machine.execHxor s
  | .hrot => Sys2Proof.Machine.execHrot s
  | .hmul5 => Sys2Proof.Machine.execHmul5 s
  | .hadd => Sys2Proof.Machine.execHadd s
  | .hlen => Sys2Proof.Machine.execHlen s
  | .fsx16a => Sys2Proof.Machine.execFsx16a s
  | .fmula => Sys2Proof.Machine.execFmula s
  | .fsx13 => Sys2Proof.Machine.execFsx13 s
  | .fmulb => Sys2Proof.Machine.execFmulb s
  | .fsx16b => Sys2Proof.Machine.execFsx16b s
  | .hout => Sys2Proof.Machine.execHout s
  | .endJob => Sys2Proof.Machine.execEnd s

end Sys2Proof.Machine
end

