-- ==== Sys2Proof/Machine/HostPort.lean ====
section
/-! DEFINITION. The host interface (10_state.md R23 to R32, 30_encoding.md R70, R72) and the sequencer's turn, with what the
host may not do (70_reset_and_hazards.md R207 to R210). -/

namespace Sys2Proof.Machine

/-- The sequencer's turn: while BUSY it performs the uop whose code is in `UPC` (R20); otherwise it is stopped and performs
nothing (R200, log 23). -/
def sequencerTurn (s : State) : Result :=
  if s.job = .busy then
    match decodeUop s.upc with
    | .ok i => exec i s
    | .error .notAUop => .fault .noUopWhileBusy
    | .error _ => .fault (.reservedUopCode s.upc)
  else .next s

/-- A write of register 0 delivers one command word (R24). -/
def writeCommand (w : Word) (s : State) : Result :=
  match decodeCommand w with
  | .ok i => exec i s
  | .error _ => .refused (.reservedCommand w)

/-- Store into a descriptor register, all bits as written (R32); of `NDIM` only the two fields are kept (R30). The other
registers ignore writes (R25, R31). -/
def setRegister (n : HostReg) (v : Word) (s : State) : State :=
  match n with
  | .dimS => { s with dimS := v }
  | .dimK => { s with dimK := v }
  | .dimL => { s with dimL := v }
  | .seedN => { s with seedN := v }
  | .ndim => { s with keyNdim := v.extractLsb' 0 4, seedNdim := v.extractLsb' 4 4 }
  | .cmd | .status | .idx => s

/-- `WRR n, v` (R70). While BUSY a write of a register other than `CMD` is refused (R209, R23, D19; log 11); otherwise a write of
a read-only register is ignored (R25, R31). -/
def writeRegister (n : HostReg) (v : Word) (s : State) : Result :=
  match n with
  | .cmd => writeCommand v s
  | .status | .idx | .dimS | .dimK | .dimL | .seedN | .ndim =>
    if s.job = .busy then .refused (.registerWriteWhileBusy n) else .next (setRegister n v s)

/-- What a register reads as (R24 to R31). -/
def registerValue (n : HostReg) (s : State) : Word :=
  match n with
  | .cmd => 0
  | .status => statusWord s
  | .dimS => s.dimS
  | .dimK => s.dimK
  | .dimL => s.dimL
  | .seedN => s.seedN
  | .ndim => ndimWord s
  | .idx => s.idx

/-- The host receives a word. -/
def deliverRead (v : Word) (s : State) : State := { s with reads := v :: s.reads }

/-- A read to which the spec gives no value: the host receives a free value (log 9). -/
def deliverFree (v : Word) (s : State) : State := { s with reads := v :: s.reads, draws := s.draws + 1 }

/-- `RDR STATUS` (R70): allowed at any time, with the present value (R194, U7). A read that is not BUSY shows the host the
job's end, so it ends the window of R207 and R208 (log 8). -/
def readStatus (s : State) : State :=
  deliverRead (statusWord s) { s with frozen := if s.job = .busy then s.frozen else ⟨0, 0, 0⟩ }

/-- `RDR n` (R70). `STATUS` and `IDX` may be read at any time (R194, R210). While BUSY a read of any other register is refused
(R23, R210, D19; log 28); otherwise `CMD` reads as 0 (R24) and the descriptor as it stands. -/
def readRegister (n : HostReg) (s : State) : Result :=
  match n with
  | .status => .next (readStatus s)
  | .idx => .next (deliverRead (registerValue n s) s)
  | .cmd | .dimS | .dimK | .dimL | .seedN | .ndim =>
    if s.job = .busy then .refused (.registerReadWhileBusy n) else .next (deliverRead (registerValue n s) s)

/-- How many words of a space, from word 0 on, are frozen since a HASH (R207, R208). The host has no access to `WORK` and `H1`
(R43, R44). -/
def State.frozenWords (s : State) : Space → Nat
  | .key => s.frozen.key
  | .seed => s.frozen.seed
  | .out => s.frozen.out
  | .work | .h1 => 0

/-- The host must leave the word alone: every word while BUSY (R23), and after that the words of the job until its end has been
seen (R207, R208; log 8). -/
def State.isFrozen (s : State) (sp : Space) (a : Nat) : Bool :=
  decide (s.job = .busy) || decide (a < s.frozenWords sp)

/-- A host write of one word of a space. A frozen word is refused; a word index beyond the capacity does not exist (R59). -/
def writeSpace (sp : Space) (a : Nat) (v : Word) (s : State) : Result :=
  if s.isFrozen sp a then .refused (.memoryWriteWhileJobOpen sp)
  else if s.cfg.holds sp a then .next (s.setSpace sp ((s.space sp).write a v))
  else .fault (.beyondCapacity sp)

/-- A host read of one word of `KEY` or `SEED`: refused while BUSY (R23, R210, D19; against R207: log 10). A word that holds no
value yields a free value (R201). -/
def readInput (sp : Space) (a : Nat) (s : State) : Result :=
  if s.job = .busy then .refused (.memoryReadWhileBusy sp)
  else if s.cfg.holds sp a then .next (deliverFree (s.load sp a) s) else .fault (.beyondCapacity sp)

/-- `RDO a` (R70). While BUSY a word beyond the job's is refused (R23, D19); of the job's own words, while they are frozen, the
value is not defined, so it is a free value (R208, U4: "A model that offers the read returns `any value`"; log 9). -/
def readOutput (a : Nat) (s : State) : Result :=
  if s.job = .busy ∧ s.words2 ≤ a then .refused (.memoryReadWhileBusy .out)
  else if s.cfg.holds .out a then
    .next (deliverFree (if s.isFrozen .out a then Config.freeWord .out s.draws a else s.load .out a) s)
  else .fault (.beyondCapacity .out)

/-- `WAIT` (R70): one `RDR STATUS`; if it showed BUSY, the sequencer performs a uop and the host polls again (R214, log 6). -/
def waitForEnd (s : State) : State :=
  if s.job = .busy then
    { readStatus s with events := .slot :: .host .wait :: s.events }
  else readStatus s

/-- One host action (R70). -/
def hostAction (a : HostAction) (s : State) : Result :=
  match a with
  | .wrr n v => writeRegister n v s
  | .rdr n => readRegister n s
  | .wrk a v => writeSpace .key a v s
  | .wrs a v => writeSpace .seed a v s
  | .wro a v => writeSpace .out a v s
  | .rdk a => readInput .key a s
  | .rds a => readInput .seed a s
  | .rdo a => readOutput a s
  | .wait => .next (waitForEnd s)

/-- `HASH` as a host action: `WRR CMD, 0x00000001` (R70). -/
def HostAction.hash : HostAction := .wrr .cmd 0x00000001

/-- One event from outside, already taken from the queue. -/
def deliver (e : Event) (s : State) : Result :=
  match e with
  | .slot => sequencerTurn s
  | .reset => .next (resetBlock s)
  | .host a => hostAction a s

/-- R47: the collaborator's packing of a raw byte buffer into words, little-endian. A buffer whose length is not a multiple
of 4 cannot be presented (R48). -/
def packLittleEndian : List Byte → Option (List Word)
  | [] => some []
  | b0 :: b1 :: b2 :: b3 :: rest =>
    (packLittleEndian rest).map
      (BitVec.ofNat 32 (b0.toNat + 2 ^ 8 * b1.toNat + 2 ^ 16 * b2.toNat + 2 ^ 24 * b3.toNat) :: ·)
  | _ => none

end Sys2Proof.Machine
end

