-- ==== Sys2Proof/Machine/Step.lean ====
section
/-! DEFINITION. One step of the machine: the outside world's next action if one is queued, else the sequencer's turn. -/

namespace Sys2Proof.Machine

/-- The first queued event is taken and delivered; with nothing queued, the sequencer performs its next uop (R214). -/
def step (s : State) : Host.Outcome State Fault Refusal :=
  match s.events with
  | [] => sequencerTurn s
  | e :: rest => deliver e { s with events := rest }

/-- The instruction of an opcode-table word where the next step takes it: a command word is the host's next write of `CMD`
(R60, R63); a uop code is in `UPC` of a running job, and the sequencer has the next turn (R20; log 7). -/
def State.withFetchWord (s : State) (nbits w : Nat) : State :=
  if nbits = 32 then { s with events := .host (.wrr .cmd (BitVec.ofNat 32 w)) :: s.events }
  else if nbits = 8 then { s with job := .busy, upc := BitVec.ofNat 8 w, events := .slot :: s.events }
  else s

end Sys2Proof.Machine
end

