-- ==== Sys2Proof/Machine/Scalar.lean ====
section
/-! DEFINITION. The scalar functions of one key and one seed: `kmix` (42_word_mix.md R113), `fold` (43_fold.md R126),
`fmix32` (44_finalize.md R146) and `hash1` (45_job_function.md R164). No step calls them; claims about jobs do. -/

namespace Sys2Proof.Machine

/-- R113. -/
def kmix (w : Word) : Word := mul32 (rotl32 (mul32 w c1) 15) c2

/-- R126. -/
def fold (h m : Word) : Word := add32 (mul32 (rotl32 (xor32 h m) 13) m5) nadd

/-- R146. -/
def fmix32 (h : Word) : Word :=
  let h := xor32 h (shr32 h 16)
  let h := mul32 h fa
  let h := xor32 h (shr32 h 13)
  let h := mul32 h fb
  xor32 h (shr32 h 16)

/-- R164: the key is `w0` followed by the words `ws`, so it has at least one word. -/
def hash1 (w0 : Word) (ws : List Word) (sd : Word) : Word :=
  fmix32 (xor32 (ws.foldl (fun h w => fold h (kmix w)) (xor32 (kmix w0) sd)) (len32 (ws.length + 1)))

/-- The last sentence of R164: `hash1` under `FIRST_WORD_FOLD` = 1 (R135), where word 0 is folded too. -/
def hash1Folded (ws : List Word) (sd : Word) : Word :=
  fmix32 (xor32 (ws.foldl (fun h w => fold h (kmix w)) sd) (len32 ws.length))

end Sys2Proof.Machine
end

