-- ==== Sys2Proof/Machine/Job.lean ====
section
/-! DEFINITION. The pseudo-instructions of 30_encoding.md R71 and what it is to perform a list of uops one after another
(20_memory.md R51). No step calls them; claims about jobs do. -/

namespace Sys2Proof.Machine

/-- `KMIX` of R71. -/
def kmixSeq : List Instr := [.kmul1, .krot, .kmul2]

/-- `FOLD` of R71. -/
def foldSeq : List Instr := [.hxor, .hrot, .hmul5, .hadd]

/-- `FMIX` of R71. -/
def fmixSeq : List Instr := [.fsx16a, .fmula, .fsx13, .fmulb, .fsx16b]

/-- `FINAL` of R71. -/
def finalSeq : List Instr := .hlen :: fmixSeq

/-- `FOLD` repeated. -/
def foldTimes : Nat → List Instr
  | 0 => []
  | n + 1 => foldSeq ++ foldTimes n

/-- `JOB(L)` of R71. -/
def jobSeq (l : Nat) : List Instr :=
  [.check, .copy] ++ kmixSeq ++ [.hinit] ++ foldTimes (l - 1) ++ finalSeq ++ [.hout, .endJob]

/-- The same under `FIRST_WORD_FOLD` = 1 (R135): `FOLD` is performed `L` times. -/
def jobSeqFolded (l : Nat) : List Instr :=
  [.check, .copy] ++ kmixSeq ++ [.hinit] ++ foldTimes l ++ finalSeq ++ [.hout, .endJob]

/-- Each instruction's meaning in turn, whatever `UPC` holds; it ends at the first stop. -/
def execAll : List Instr → State → Result
  | [], s => .next s
  | i :: is, s =>
    match exec i s with
    | .next t => execAll is t
    | .fault r => .fault r
    | .refused r => .refused r

/-- `n` steps of the machine, ending at the first stop: `Host.Core.run` of this machine. -/
def runSteps : Nat → State → Result
  | 0, s => .next s
  | n + 1, s =>
    match step s with
    | .next t => runSteps n t
    | .fault r => .fault r
    | .refused r => .refused r

/-- The words of key `k` of group `g` after word 0, as `KEY` holds them, for the job's `L` (R164, R165). -/
def keyTail (s : State) (g k : Nat) : List Word :=
  (List.range (s.L - 1)).map fun j => s.load .key (s.a3 g k (j + 1))

/-- The hash of R165 for key `k` of group `g`, from the contents of `KEY` and `SEED` in `s`. -/
def expectedHash (s : State) (g k : Nat) : Word :=
  hash1 (s.load .key (s.a3 g k 0)) (keyTail s g k) (s.load .seed (s.a1 g))

end Sys2Proof.Machine
end

