-- ==== Sys2Proof/Safety.lean ====
section
/-! DEFINITION. What a safe state is, in the terms the claims use: the canonical memories, the legal control states of a job
(10_state.md R20 to R22, R33), and what has been written by each point of a job (R11, R15). -/

namespace Sys2Proof.Machine

/-- Words 0 to `n - 1` of a space hold a value. -/
abbrev State.written (s : State) (sp : Space) (n : Nat) : Prop := ∀ a, a < n → ((s.space sp).read? a).isSome = true

/-- Every space is in canonical form and lists only words that exist (20_memory.md R59). -/
structure MemoryInv (s : State) : Prop where
  canonical : ∀ sp, (s.space sp).wf
  exist : ∀ sp, ∀ c ∈ s.space sp, s.cfg.holds sp c.1 = true

/-- The codes up to HINIT, where `IDX` is 0 (R21). -/
abbrev beforeFold : List Byte := [0x01, 0x02, 0x10, 0x11, 0x12, 0x20]

/-- The codes of the fold, HXOR to HADD. -/
abbrev inFold : List Byte := [0x30, 0x31, 0x32, 0x33]

/-- The codes from HLEN on, where `IDX` is `L` (R21). -/
abbrev afterFold : List Byte := [0x40, 0x50, 0x51, 0x52, 0x53, 0x54, 0x60, 0x70]

/-- The word index at which the fold starts: 1 (R120), or 0 under `FIRST_WORD_FOLD` = 1 (R135). -/
abbrev State.firstFolded (s : State) : Nat := if s.cfg.firstWordFold then 0 else 1

/-- The legal control states of a job. -/
structure JobInv (s : State) : Prop where
  /-- R20: while BUSY, `UPC` holds one of the eighteen codes. -/
  upcBusy : s.job = .busy → s.upc ∈ beforeFold ++ inFold ++ afterFold
  /-- R20, R25: otherwise it holds `0x00`. -/
  upcStopped : s.job ≠ .busy → s.upc = 0x00
  /-- R25: `CAUSE` is zero unless `STATE` is ERROR. -/
  causeClear : s.job ≠ .error → s.cause = 0
  /-- R188: in ERROR it is not zero. -/
  causeSet : s.job = .error → s.cause ≠ 0
  /-- R207, R208 (log 8): while BUSY the words of the job are frozen. -/
  frozenBusy : s.job = .busy → s.words3 ≤ s.frozen.key ∧ s.S ≤ s.frozen.seed ∧ s.words2 ≤ s.frozen.out
  /-- R101, R209: after CHECK the descriptor is legal and stays so. -/
  checked : s.job = .busy → s.upc ≠ 0x01 → violations s = 0
  /-- R21: `IDX` is 0 until HINIT. -/
  idxBefore : s.job = .busy → s.upc ∈ beforeFold → s.idx = 0
  /-- R122, R161: the range of `IDX` in the fold. -/
  idxLow : s.job = .busy → s.upc ∈ inFold → s.firstFolded ≤ s.idx.toNat
  idxHigh : s.job = .busy → s.upc ∈ inFold → s.idx.toNat < s.L
  /-- R21: `IDX` is `L` after the fold. -/
  idxAfter : s.job = .busy → s.upc ∈ afterFold → s.idx = s.dimL
  /-- R21: 0 after a job that ended in ERROR. -/
  idxError : s.job = .error → s.idx = 0
  /-- R15: `WORK` is wholly written from COPY on. -/
  workWritten : s.job = .busy → s.upc ≠ 0x01 → s.upc ≠ 0x02 → s.written .work s.words3
  /-- R11: `H1` is wholly written from HINIT on. -/
  h1Written : s.job = .busy → s.upc ∈ inFold ++ afterFold → s.written .h1 s.words2
  /-- R104: at END the whole of the Hash Output is in `OUT`. -/
  outWritten : s.job = .busy → s.upc = 0x70 → s.written .out s.words2

/-- The invariant of the machine. -/
structure Inv (s : State) : Prop where
  config : s.cfg.WellFormed
  memory : MemoryInv s
  control : JobInv s

/-- A descriptor that CHECK accepts, said with the numbers of R102. -/
structure LegalDescriptor (s : State) : Prop where
  rankKey : s.keyNdim = 3
  rankSeed : s.seedNdim = 1
  seedCount : s.seedN = s.dimS
  wordLen : s.dimL ≠ 0
  capKey : s.fits .key (s.S * s.K * s.L) = true
  capWork : s.fits .work (s.S * s.K * s.L) = true
  capSeed : s.fits .seed s.S = true
  capH1 : s.fits .h1 (s.S * s.K) = true
  capOut : s.fits .out (s.S * s.K) = true

/-- The state in which HASH leaves the machine: the job stands before CHECK (R100). -/
structure JobStart (s : State) : Prop where
  busy : s.job = .busy
  atCheck : s.upc = 0x01
  idxZero : s.idx = 0
  causeZero : s.cause = 0

end Sys2Proof.Machine
end

