-- ==== Sys2Proof/Certificates/Slice0/Obligations.lean ====
section
/-! DEFINITION. The statements for the provers, from the numbered rules of spec/. Each docstring names its rules. The
definitions under `Sys2Proof.Claims` are the vocabulary the statements share. -/

namespace Sys2Proof.Claims

open Sys2Proof.Machine

/-- Every word `a3(g,k,l)` of the job exists in the space (R59). -/
def AllExist3 (s : State) (sp : Space) : Prop :=
  ∀ g k l, g < s.S → k < s.K → l < s.L → s.cfg.holds sp (s.a3 g k l) = true

/-- Every word `a2(g,k)` of the job exists in the space (R59). -/
def AllExist2 (s : State) (sp : Space) : Prop :=
  ∀ g k, g < s.S → k < s.K → s.cfg.holds sp (s.a2 g k) = true

/-- Word `l` of every key exists in `WORK` (R59). -/
def ColumnExists (s : State) (l : Nat) : Prop :=
  ∀ g k, g < s.S → k < s.K → s.cfg.holds .work (s.a3 g k l) = true

/-- The seed of every group that has a key exists in `SEED` (R59). -/
def SeedsExist (s : State) : Prop :=
  ∀ g k, g < s.S → k < s.K → s.cfg.holds .seed (s.a1 g) = true

/-- The uop `i` has the code `code`; where its words exist it completes, replaces every word of the working copy by `op` of
it, transfers control to `next`, and changes nothing else. -/
def RewritesWork (i : Instr) (code next : Byte) (op : Word → Word) : Prop :=
  encode i = .uop code ∧
  ∀ s : State, AllExist3 s .work →
    ∃ t, exec i s = .next t ∧
      (∀ g k l, g < s.S → k < s.K → l < s.L →
        t.work.read? (s.a3 g k l) = some (op (s.load .work (s.a3 g k l)))) ∧
      (∀ a, s.S * s.K * s.L ≤ a → t.work.read? a = s.work.read? a) ∧
      t = { s with work := t.work, upc := next, draws := s.draws + 1 }

/-- The uop `i` has the code `code`; where its words exist it completes, replaces every running hash by `op` of it,
transfers control to `next`, and changes nothing else. -/
def RewritesH1 (i : Instr) (code next : Byte) (op : State → Word → Word) : Prop :=
  encode i = .uop code ∧
  ∀ s : State, AllExist2 s .h1 →
    ∃ t, exec i s = .next t ∧
      (∀ g k, g < s.S → k < s.K → t.h1.read? (s.a2 g k) = some (op s (s.load .h1 (s.a2 g k)))) ∧
      (∀ a, s.S * s.K ≤ a → t.h1.read? a = s.h1.read? a) ∧
      t = { s with h1 := t.h1, upc := next, draws := s.draws + 1 }

/-- The next-uop function, line by line from the table of R160, for a uop that does not trap. -/
def nextUop (s : State) : Byte :=
  if s.upc = 0x01 then 0x02
  else if s.upc = 0x02 then 0x10
  else if s.upc = 0x10 then 0x11
  else if s.upc = 0x11 then 0x12
  else if s.upc = 0x12 then 0x20
  else if s.upc = 0x20 then (if 1 < s.L then 0x30 else 0x40)
  else if s.upc = 0x30 then 0x31
  else if s.upc = 0x31 then 0x32
  else if s.upc = 0x32 then 0x33
  else if s.upc = 0x33 then (if s.idx.toNat + 1 < s.L then 0x30 else 0x40)
  else if s.upc = 0x40 then 0x50
  else if s.upc = 0x50 then 0x51
  else if s.upc = 0x51 then 0x52
  else if s.upc = 0x52 then 0x53
  else if s.upc = 0x53 then 0x54
  else if s.upc = 0x54 then 0x60
  else if s.upc = 0x60 then 0x70
  else 0x00

/-- The spaces that the uop of a code reads or writes, from the table of R54. -/
def touched (b : Byte) : List Space :=
  if b = 0x02 then [.key, .work]
  else if b ∈ [0x10#8, 0x11#8, 0x12#8] then [.work]
  else if b = 0x20 then [.work, .seed, .h1]
  else if b = 0x30 then [.h1, .work]
  else if b ∈ [0x31#8, 0x32#8, 0x33#8, 0x40#8, 0x50#8, 0x51#8, 0x52#8, 0x53#8, 0x54#8] then [.h1]
  else if b = 0x60 then [.h1, .out]
  else []

/-- The same outcome with every next state changed by `f`. -/
def mapNext (f : State → State) : Result → Result
  | .next t => .next (f t)
  | .fault r => .fault r
  | .refused r => .refused r

/-- The state with another number of lanes. -/
def withLanes (n : Nat) (s : State) : State := { s with cfg := { s.cfg with lanes := n } }

/-- The words frozen from a HASH on: those of its job, `S*K*L` words of `KEY`, `S` of `SEED` and `S*K` of `OUT` (R207, R208),
beside those that an earlier HASH froze (log 8). -/
def frozenByJob (s : State) : Frozen :=
  ⟨max s.frozen.key (s.S * s.K * s.L), max s.frozen.seed s.S, max s.frozen.out (s.S * s.K)⟩

/-- The host writes HASH while no job runs, the descriptor is legal, and every word the job reads has been written
(R204): the start of a job of R165. -/
structure JobRequested (s : State) : Prop where
  notBusy : s.job ≠ .busy
  command : s.events = [.host HostAction.hash]
  legal : LegalDescriptor s
  keys : s.written .key (s.S * s.K * s.L)
  seeds : s.written .seed s.S

end Sys2Proof.Claims

open Sys2Proof Sys2Proof.Machine Sys2Proof.Claims

/-! ### Encoding -/

/-- R63, R64, R66, R67: a code decodes to an instruction exactly when it is that instruction's code. -/
def Obligations.DecodeAcceptsExactlyTheEncodings : Prop :=
  ∀ (c : Code) (i : Instr), decode c = .ok i ↔ c = encode i

/-- R63, R64: the words of the opcode map, written out. -/
def Obligations.OpcodeMapWordsDecode : Prop :=
  decodeTableWord 32 0x00000001 = some .hash ∧ decodeTableWord 8 0x01 = some .check ∧
  decodeTableWord 8 0x02 = some .copy ∧ decodeTableWord 8 0x10 = some .kmul1 ∧ decodeTableWord 8 0x20 = some .hinit ∧
  decodeTableWord 8 0x33 = some .hadd ∧ decodeTableWord 8 0x40 = some .hlen ∧ decodeTableWord 8 0x54 = some .fsx16b ∧
  decodeTableWord 8 0x60 = some .hout ∧ decodeTableWord 8 0x70 = some .endJob ∧
  decodeTableWord 8 0x00 = none ∧ decodeTableWord 8 0x55 = none ∧ decodeTableWord 32 0x101 = none

/-- R66, R67, U3, U5: a reserved command word is refused in every state, and a running job whose `UPC` holds anything but
the eighteen codes faults. (That a reserved word written while BUSY is refused as reserved: log 22. `0x00` while BUSY, which
is no reserved code: log 16. Both are the model's choice.) -/
def Obligations.ReservedCodesAreStopped : Prop :=
  (∀ (s : State) (w : Word) (rest : List Event), w ≠ 0x00000001 → s.events = .host (.wrr .cmd w) :: rest →
    step s = .refused (.reservedCommand w)) ∧
  (∀ s : State, s.events = [] → s.job = .busy → (∀ i, encode i ≠ .uop s.upc) →
    step s = .fault (if s.upc = 0x00 then .noUopWhileBusy else .reservedUopCode s.upc))

/-! ### The step -/

/-- R20, R60, R63, R200: the sequencer's turn of a running job is the meaning of the instruction whose code is in `UPC`; a
write of `CMD` is the meaning of the instruction its word decodes to; and when no job runs the sequencer performs nothing
(log 23). Around it the step takes the event from the queue (log 5). -/
def Obligations.StepRunsTheDecodedInstruction : Prop :=
  ∀ (s : State) (rest : List Event),
    (∀ i, s.events = [] → s.job = .busy → decodeUop s.upc = .ok i → step s = exec i s) ∧
    (∀ i, s.events = .slot :: rest → s.job = .busy → decodeUop s.upc = .ok i →
      step s = exec i { s with events := rest }) ∧
    (∀ i w, s.events = .host (.wrr .cmd w) :: rest → decodeCommand w = .ok i →
      step s = exec i { s with events := rest }) ∧
    (s.events = [] → s.job ≠ .busy → step s = .next s) ∧
    (s.events = .slot :: rest → s.job ≠ .busy → step s = .next { s with events := rest })

/-- R160: the table of the next-uop function. -/
def Obligations.NextUopFollowsTheTable : Prop :=
  ∀ s t : State, s.cfg.firstWordFold = false → s.events = [] → s.job = .busy → step s = .next t →
    t.upc = if s.upc = 0x01 ∧ violations s ≠ 0 then 0x00 else nextUop s

/-- R33: the only changes of `STATE`. -/
def Obligations.JobStateChangesOnlyByTheTable : Prop :=
  ∀ s t : State, step s = .next t →
    t.job = s.job ∨
    (s.job ≠ .busy ∧ t.job = .busy ∧ t.cause = 0 ∧ t.idx = 0 ∧ t.upc = 0x01 ∧
      ∃ rest, s.events = .host (.wrr .cmd 0x00000001) :: rest) ∨
    (s.job = .busy ∧ t.job = .error ∧ s.upc = 0x01 ∧ violations s ≠ 0 ∧ t.cause = violations s ∧ t.upc = 0x00) ∨
    (s.job = .busy ∧ t.job = .done ∧ s.upc = 0x70 ∧ t.upc = 0x00) ∨
    (t.job = .idle ∧ ∃ rest, s.events = .reset :: rest)

/-! ### Reset -/

/-- R34: the state after reset, and that a HASH straight after it ends in ERROR with RANK and WORD_LEN and changes nothing
else. (The fields `frozen`, `cfg`, `events`, `reads`, `draws` are the model's: log 3, 4, 5, 8, 21.) -/
def Obligations.ResetStateAndHashAfterReset : Prop :=
  statusWord State.reset = 0 ∧ State.reset.job = .idle ∧ State.reset.cause = 0 ∧ State.reset.upc = 0x00 ∧
  State.reset.idx = 0 ∧ State.reset.dimS = 0 ∧ State.reset.dimK = 0 ∧ State.reset.dimL = 0 ∧ State.reset.seedN = 0 ∧
  State.reset.keyNdim = 0 ∧ State.reset.seedNdim = 0 ∧
  (∀ (sp : Space) (a : Nat), (State.reset.space sp).read? a = none) ∧
  ∃ t, runSteps 2 { State.reset with events := [.host HostAction.hash] } = .next t ∧
    statusWord t = 0x00000053 ∧
    t = { State.reset with job := .error, cause := 0b0101 }

/-- R200, R201, R202: reset puts the registers into their reset values, keeps `KEY` and `SEED`, keeps `OUT` unless a job was
running, and leaves no value in `WORK`, `H1`, nor in `OUT` when it interrupts a job (log 14). -/
def Obligations.ResetEventSetsRegistersAndForgetsWork : Prop :=
  ∀ (s : State) (rest : List Event), s.events = .reset :: rest →
    ∃ t, step s = .next t ∧ statusWord t = 0 ∧ t.idx = 0 ∧ t.dimS = 0 ∧ t.dimK = 0 ∧ t.dimL = 0 ∧ t.seedN = 0 ∧
      ndimWord t = 0 ∧ t.key = s.key ∧ t.seed = s.seed ∧
      (∀ a, t.work.read? a = none ∧ t.h1.read? a = none) ∧
      (s.job ≠ .busy → t.out = s.out) ∧ (s.job = .busy → ∀ a, t.out.read? a = none) ∧
      t.cfg = s.cfg ∧ t.events = rest ∧ t.reads = s.reads

/-! ### Job control -/

/-- R100, R33, R210, U2: HASH in any state but BUSY starts a job; while BUSY it is refused. From then on the
words of the job are frozen (R207, R208; how `frozen` records it: log 8). -/
def Obligations.HashStartsAJobUnlessOneRuns : Prop :=
  encode .hash = .command 0x00000001 ∧
  (∀ s : State, s.job ≠ .busy →
    exec .hash s = .next { s with job := .busy, cause := 0, idx := 0, upc := 0x01, frozen := frozenByJob s }) ∧
  (∀ s : State, s.job = .busy → exec .hash s = .refused .commandWhileBusy)

/-- R101: a legal descriptor goes on to COPY, and nothing but `UPC` changes. -/
def Obligations.CheckPassesALegalDescriptor : Prop :=
  encode .check = .uop 0x01 ∧ ∀ s : State, LegalDescriptor s → exec .check s = .next { s with upc := 0x02 }

/-- R102, R181 to R184, R187, R188: CHECK takes ContractError on every other descriptor; every violated condition sets its
bit of `CAUSE` and no other bit is set; nothing but `CAUSE`, `STATE` and `UPC` changes. -/
def Obligations.CheckTrapsAndReportsEveryViolation : Prop :=
  ∀ s : State, ¬ LegalDescriptor s →
    ∃ m : BitVec 4, exec .check s = .next { s with cause := m, job := .error, upc := 0x00 } ∧ m ≠ 0 ∧
      (m.getLsbD 0 = true ↔ s.keyNdim ≠ 3 ∨ s.seedNdim ≠ 1) ∧
      (m.getLsbD 1 = true ↔ s.seedN ≠ s.dimS) ∧
      (m.getLsbD 2 = true ↔ s.dimL = 0) ∧
      (m.getLsbD 3 = true ↔
        s.fits .key (s.S * s.K * s.L) = false ∨ s.fits .work (s.S * s.K * s.L) = false ∨ s.fits .seed s.S = false ∨
        s.fits .h1 (s.S * s.K) = false ∨ s.fits .out (s.S * s.K) = false)

/-- R103: COPY writes every word of the working copy from `KEY`, unchanged, and touches nothing else. -/
def Obligations.CopyDuplicatesTheKeyBatch : Prop :=
  encode .copy = .uop 0x02 ∧
  ∀ s : State, AllExist3 s .key → AllExist3 s .work →
    ∃ t, exec .copy s = .next t ∧
      (∀ g k l, g < s.S → k < s.K → l < s.L → t.work.read? (s.a3 g k l) = some (s.load .key (s.a3 g k l))) ∧
      (∀ a, s.S * s.K * s.L ≤ a → t.work.read? a = s.work.read? a) ∧
      t = { s with work := t.work, upc := 0x10, draws := s.draws + 1 }

/-- R104: END sets DONE and stops the sequencer; nothing else changes, so `IDX` and `CAUSE` keep their values. -/
def Obligations.EndFinishesTheJob : Prop :=
  encode .endJob = .uop 0x70 ∧ ∀ s : State, exec .endJob s = .next { s with job := .done, upc := 0x00 }

/-! ### Per-word mixing -/

/-- R110. -/
def Obligations.Kmul1MultipliesEveryWordByC1 : Prop :=
  RewritesWork .kmul1 0x10 0x11 fun w => w * 0xCC9E2D51

/-- R111. -/
def Obligations.KrotRotatesEveryWordBy15 : Prop :=
  RewritesWork .krot 0x11 0x12 fun w => w.rotateLeft 15

/-- R112. -/
def Obligations.Kmul2MultipliesEveryWordByC2 : Prop :=
  RewritesWork .kmul2 0x12 0x20 fun w => w * 0x1B873593

/-- R113: COPY, KMUL1, KROT, KMUL2 leave `kmix` of every key word in the working copy. -/
def Obligations.MixedWordsAreKmixOfTheKey : Prop :=
  ∀ s : State, AllExist3 s .key → AllExist3 s .work →
    ∃ t, execAll (.copy :: kmixSeq) s = .next t ∧
      (∀ g k l, g < s.S → k < s.K → l < s.L →
        t.work.read? (s.a3 g k l) = some (kmix (s.load .key (s.a3 g k l)))) ∧
      t = { s with work := t.work, upc := 0x20, draws := s.draws + 4 }

/-! ### Initialisation and fold -/

/-- R120: HINIT on this hardware (`FIRST_WORD_FOLD` = 0). -/
def Obligations.HinitXorsWordZeroWithTheSeed : Prop :=
  encode .hinit = .uop 0x20 ∧
  ∀ s : State, s.cfg.firstWordFold = false → ColumnExists s 0 → SeedsExist s → AllExist2 s .h1 →
    ∃ t, exec .hinit s = .next t ∧
      (∀ g k, g < s.S → k < s.K →
        t.h1.read? (s.a2 g k) = some (s.load .work (s.a3 g k 0) ^^^ s.load .seed (s.a1 g))) ∧
      (∀ a, s.S * s.K ≤ a → t.h1.read? a = s.h1.read? a) ∧
      t = { s with h1 := t.h1, idx := 1, upc := if 1 < s.L then 0x30 else 0x40, draws := s.draws + 1 }

/-- R135: HINIT under the configuration `FIRST_WORD_FOLD` = 1, which is not this hardware. -/
def Obligations.HinitUnderTheOtherReadingTakesTheSeed : Prop :=
  ∀ s : State, s.cfg.firstWordFold = true → SeedsExist s → AllExist2 s .h1 →
    ∃ t, exec .hinit s = .next t ∧
      (∀ g k, g < s.S → k < s.K → t.h1.read? (s.a2 g k) = some (s.load .seed (s.a1 g))) ∧
      (∀ a, s.S * s.K ≤ a → t.h1.read? a = s.h1.read? a) ∧
      t = { s with h1 := t.h1, idx := 0, upc := 0x30, draws := s.draws + 1 }

/-- R122: HXOR takes the word at `IDX` of every key and does not change `IDX`. -/
def Obligations.HxorFoldsInTheWordAtIdx : Prop :=
  encode .hxor = .uop 0x30 ∧
  ∀ s : State, ColumnExists s s.idx.toNat → AllExist2 s .h1 →
    ∃ t, exec .hxor s = .next t ∧
      (∀ g k, g < s.S → k < s.K →
        t.h1.read? (s.a2 g k) = some (s.load .h1 (s.a2 g k) ^^^ s.load .work (s.a3 g k s.idx.toNat))) ∧
      (∀ a, s.S * s.K ≤ a → t.h1.read? a = s.h1.read? a) ∧
      t = { s with h1 := t.h1, upc := 0x31, draws := s.draws + 1 }

/-- R123. -/
def Obligations.HrotRotatesEveryHashBy13 : Prop :=
  RewritesH1 .hrot 0x31 0x32 fun _ h => h.rotateLeft 13

/-- R124. -/
def Obligations.Hmul5MultipliesEveryHashBy5 : Prop :=
  RewritesH1 .hmul5 0x32 0x33 fun _ h => h * 5

/-- R125, R161: HADD adds the constant, advances `IDX`, and loops while words are left; `IDX` does not wrap while it is
below `L`. (The comparison is on natural numbers in every state: log 17.) -/
def Obligations.HaddAddsAndAdvancesTheLoop : Prop :=
  encode .hadd = .uop 0x33 ∧
  ∀ s : State, AllExist2 s .h1 →
    ∃ t, exec .hadd s = .next t ∧
      (∀ g k, g < s.S → k < s.K → t.h1.read? (s.a2 g k) = some (s.load .h1 (s.a2 g k) + 0xE6546B64)) ∧
      (∀ a, s.S * s.K ≤ a → t.h1.read? a = s.h1.read? a) ∧
      (s.idx.toNat < s.L → t.idx.toNat = s.idx.toNat + 1) ∧
      t = { s with h1 := t.h1, idx := s.idx + 1, upc := if s.idx.toNat + 1 < s.L then 0x30 else 0x40, draws := s.draws + 1 }

/-- R126: one pass of HXOR, HROT, HMUL5, HADD is `fold` with the word at `IDX`, for every key. -/
def Obligations.OnePassIsFold : Prop :=
  ∀ s : State, ColumnExists s s.idx.toNat → AllExist2 s .h1 →
    ∃ t, execAll foldSeq s = .next t ∧
      (∀ g k, g < s.S → k < s.K →
        t.h1.read? (s.a2 g k) = some (fold (s.load .h1 (s.a2 g k)) (s.load .work (s.a3 g k s.idx.toNat)))) ∧
      t = { s with h1 := t.h1, idx := s.idx + 1, upc := if s.idx.toNat + 1 < s.L then 0x30 else 0x40, draws := s.draws + 4 }

/-! ### Finalization and output -/

/-- R140, R147: HLEN XORs the byte length of the key, reduced to 32 bits. -/
def Obligations.HlenXorsTheByteLength : Prop :=
  RewritesH1 .hlen 0x40 0x50 fun s h => h ^^^ BitVec.ofNat 32 (4 * s.L % 2 ^ 32)

/-- R141. -/
def Obligations.Fsx16aXorsTheUpperHalfDown : Prop :=
  RewritesH1 .fsx16a 0x50 0x51 fun _ h => h ^^^ h >>> 16

/-- R142. -/
def Obligations.FmulaMultipliesEveryHashByFa : Prop :=
  RewritesH1 .fmula 0x51 0x52 fun _ h => h * 0x85EBCA6B

/-- R143. -/
def Obligations.Fsx13XorsTheHashShiftedBy13 : Prop :=
  RewritesH1 .fsx13 0x52 0x53 fun _ h => h ^^^ h >>> 13

/-- R144. -/
def Obligations.FmulbMultipliesEveryHashByFb : Prop :=
  RewritesH1 .fmulb 0x53 0x54 fun _ h => h * 0xC2B2AE35

/-- R145. -/
def Obligations.Fsx16bXorsTheUpperHalfDown : Prop :=
  RewritesH1 .fsx16b 0x54 0x60 fun _ h => h ^^^ h >>> 16

/-- R146: the five avalanche uops in their order are `fmix32`, for every key. -/
def Obligations.AvalancheUopsAreFmix32 : Prop :=
  ∀ s : State, AllExist2 s .h1 →
    ∃ t, execAll fmixSeq s = .next t ∧
      (∀ g k, g < s.S → k < s.K → t.h1.read? (s.a2 g k) = some (fmix32 (s.load .h1 (s.a2 g k)))) ∧
      t = { s with h1 := t.h1, upc := 0x60, draws := s.draws + 5 }

/-- R152: HOUT stores every running hash to `OUT` and touches no other word. -/
def Obligations.HoutStoresEveryHash : Prop :=
  encode .hout = .uop 0x60 ∧
  ∀ s : State, AllExist2 s .h1 → AllExist2 s .out →
    ∃ t, exec .hout s = .next t ∧
      (∀ g k, g < s.S → k < s.K → t.out.read? (s.a2 g k) = some (s.load .h1 (s.a2 g k))) ∧
      (∀ a, s.S * s.K ≤ a → t.out.read? a = s.out.read? a) ∧
      t = { s with out := t.out, upc := 0x70, draws := s.draws + 1 }

/-! ### Capacity, and what a uop touches -/

/-- R59 (and log 15, the model's choice of a fault): where a word that a uop would read or write does not exist, the uop
stops, naming a space that lacks one, and no state results. CHECK keeps a job from ever getting there. -/
def Obligations.MissingWordsStopEveryArrayUop : Prop :=
  ∀ s : State,
    (¬ AllExist3 s .work → ∀ i ∈ [Instr.kmul1, .krot, .kmul2], exec i s = .fault (.beyondCapacity .work)) ∧
    (¬ AllExist2 s .h1 → ∀ i ∈ [Instr.hrot, .hmul5, .hadd, .hlen, .fsx16a, .fmula, .fsx13, .fmulb, .fsx16b],
      exec i s = .fault (.beyondCapacity .h1)) ∧
    (¬ (AllExist3 s .key ∧ AllExist3 s .work) →
      exec .copy s = .fault (.beyondCapacity .key) ∧ ¬ AllExist3 s .key ∨
      exec .copy s = .fault (.beyondCapacity .work) ∧ ¬ AllExist3 s .work) ∧
    (s.cfg.firstWordFold = false → ¬ (ColumnExists s 0 ∧ SeedsExist s ∧ AllExist2 s .h1) →
      exec .hinit s = .fault (.beyondCapacity .work) ∧ ¬ ColumnExists s 0 ∨
      exec .hinit s = .fault (.beyondCapacity .seed) ∧ ¬ SeedsExist s ∨
      exec .hinit s = .fault (.beyondCapacity .h1) ∧ ¬ AllExist2 s .h1) ∧
    (s.cfg.firstWordFold = true → ¬ (SeedsExist s ∧ AllExist2 s .h1) →
      exec .hinit s = .fault (.beyondCapacity .seed) ∧ ¬ SeedsExist s ∨
      exec .hinit s = .fault (.beyondCapacity .h1) ∧ ¬ AllExist2 s .h1) ∧
    (¬ (ColumnExists s s.idx.toNat ∧ AllExist2 s .h1) →
      exec .hxor s = .fault (.beyondCapacity .work) ∧ ¬ ColumnExists s s.idx.toNat ∨
      exec .hxor s = .fault (.beyondCapacity .h1) ∧ ¬ AllExist2 s .h1) ∧
    (¬ (AllExist2 s .h1 ∧ AllExist2 s .out) →
      exec .hout s = .fault (.beyondCapacity .h1) ∧ ¬ AllExist2 s .h1 ∨
      exec .hout s = .fault (.beyondCapacity .out) ∧ ¬ AllExist2 s .out)

/-- R54: a space not listed for a uop is not touched by it: the uop does the same whatever that space holds, and leaves it. -/
def Obligations.UnlistedSpacesAreNotTouched : Prop :=
  ∀ (s : State) (sp : Space) (m : Memory), s.events = [] → sp ∉ touched s.upc →
    step (s.setSpace sp m) = mapNext (·.setSpace sp m) (step s)

/-- R54, R171: the sequencer never writes `KEY`, `SEED` or a descriptor register. -/
def Obligations.SequencerNeverWritesInputsOrDescriptor : Prop :=
  ∀ s t : State, s.events = [] → step s = .next t →
    t.key = s.key ∧ t.seed = s.seed ∧ t.dimS = s.dimS ∧ t.dimK = s.dimK ∧ t.dimL = s.dimL ∧ t.seedN = s.seedN ∧
    t.keyNdim = s.keyNdim ∧ t.seedNdim = s.seedNdim ∧ t.cfg = s.cfg ∧ t.reads = s.reads

/-- R168: the number of lanes affects no step. -/
def Obligations.LanesAffectNoResult : Prop :=
  ∀ (s : State) (n : Nat), step (withLanes n s) = mapNext (withLanes n) (step s)

/-! ### Invariants and progress -/

/-- R5, R11, R15, R20, R21, R25, R33, R59, R207, R208: every step keeps the invariant of Safety.lean. (Two of its clauses are
the model's own: the canonical form of the memories, log 1, and `frozen`, log 8.) -/
def Obligations.EveryStepKeepsTheInvariant : Prop :=
  ∀ s t : State, Inv s → step s = .next t → Inv t

/-- The invariant holds after reset. -/
def Obligations.ResetMeetsTheInvariant : Prop := Inv State.reset

/-- R59, R173, R214: from every state of the invariant the sequencer's turn completes: nothing can fail after CHECK. -/
def Obligations.SequencerAlwaysCompletes : Prop :=
  ∀ s : State, Inv s → s.events = [] → ∃ t, step s = .next t

/-- R162, R214: a running job that is left alone ends, in DONE or ERROR, after at most `4*L + 10` uops
(`4*L + 14` under `FIRST_WORD_FOLD` = 1, R135). -/
def Obligations.EveryJobEnds : Prop :=
  ∀ s : State, Inv s → s.events = [] → s.job = .busy →
    ∃ n t, n ≤ 4 * s.L + 14 ∧ (s.cfg.firstWordFold = false → n ≤ 4 * s.L + 10) ∧
      runSteps n s = .next t ∧ (t.job = .done ∨ t.job = .error)

/-! ### The whole job -/

/-- R71, R160, R162: for a job that passes CHECK the sequencer performs exactly `JOB(L)`, which has `4*L + 10` uops. -/
def Obligations.SequencerPerformsJobOfL : Prop :=
  ∀ s : State, s.cfg.firstWordFold = false → s.events = [] → JobStart s → LegalDescriptor s →
    (jobSeq s.L).length = 4 * s.L + 10 ∧
    runSteps (4 * s.L + 10) s = execAll (jobSeq s.L) s ∧
    ∀ n, n < 4 * s.L + 10 → ∃ t, runSteps n s = .next t ∧ t.job = .busy ∧
      (jobSeq s.L)[n]? = (decodeUop t.upc).toOption

/-- R165, R162, R104: after HASH and `4*L + 10` uops the job is DONE and every output word is `hash1` of its key and seed;
`KEY`, `SEED`, the descriptor and the other words of `OUT` are unchanged. -/
def Obligations.JobLeavesHash1OfEveryKey : Prop :=
  ∀ s : State, s.cfg.firstWordFold = false → JobRequested s →
    ∃ t, runSteps (4 * s.L + 11) s = .next t ∧
      statusWord t = 0x00000002 ∧ t.idx = s.dimL ∧
      (∀ g k, g < s.S → k < s.K → t.out.read? (s.a2 g k) = some (expectedHash s g k)) ∧
      (∀ a, s.S * s.K ≤ a → t.out.read? a = s.out.read? a) ∧
      t.key = s.key ∧ t.seed = s.seed ∧ t.dimS = s.dimS ∧ t.dimK = s.dimK ∧ t.dimL = s.dimL ∧ t.seedN = s.seedN ∧
      t.keyNdim = s.keyNdim ∧ t.seedNdim = s.seedNdim

/-- R135 and the last sentence of R164: under the configuration `FIRST_WORD_FOLD` = 1 the job takes `4*L + 14` uops and
leaves the hash in which every word is folded. -/
def Obligations.JobUnderTheOtherReading : Prop :=
  ∀ s : State, s.cfg.firstWordFold = true → JobRequested s →
    ∃ t, runSteps (4 * s.L + 15) s = .next t ∧ statusWord t = 0x00000002 ∧
      (∀ g k, g < s.S → k < s.K → t.out.read? (s.a2 g k) =
        some (hash1Folded (s.load .key (s.a3 g k 0) :: keyTail s g k) (s.load .seed (s.a1 g)))) ∧
      (∀ a, s.S * s.K ≤ a → t.out.read? a = s.out.read? a)

/-- R162, R173, R188: a job that fails CHECK performs one uop, ends in ERROR, and changes no memory word, no descriptor
register; `IDX` is 0. -/
def Obligations.FailedJobWritesNothing : Prop :=
  ∀ s : State, s.job ≠ .busy → s.events = [.host HostAction.hash] → ¬ LegalDescriptor s →
    ∃ m : BitVec 4, m ≠ 0 ∧ runSteps 2 s =
      .next { s with job := .error, cause := m, idx := 0, upc := 0x00, frozen := frozenByJob s, events := [] }

/-- R170, R172: two jobs with the same descriptor and the same input words end with the same output words, the same
`STATUS` and the same `IDX`, whatever else the two machines hold (the draws, the lanes, `WORK`, `H1`, `OUT`, `IDX`, `CAUSE`). -/
def Obligations.JobResultDependsOnInputsOnly : Prop :=
  ∀ s s' : State, s.cfg.firstWordFold = false → s'.cfg.firstWordFold = false → JobRequested s → JobRequested s' →
    s.dimS = s'.dimS → s.dimK = s'.dimK → s.dimL = s'.dimL →
    (∀ a, a < s.S * s.K * s.L → s.key.read? a = s'.key.read? a) → (∀ a, a < s.S → s.seed.read? a = s'.seed.read? a) →
    ∃ t t', runSteps (4 * s.L + 11) s = .next t ∧ runSteps (4 * s.L + 11) s' = .next t' ∧
      statusWord t = statusWord t' ∧ t.idx = t'.idx ∧ ∀ a, a < s.S * s.K → t.out.read? a = t'.out.read? a

/-- R121, R174: changing the seed of one group changes every output of that group and none of any other group. -/
def Obligations.SeedReachesExactlyItsGroup : Prop :=
  ∀ (s : State) (g0 : Nat) (v : Word), s.cfg.firstWordFold = false → JobRequested s → g0 < s.S →
    s.seed.read? g0 ≠ some v →
    ∃ t t', runSteps (4 * s.L + 11) s = .next t ∧
      runSteps (4 * s.L + 11) { s with seed := s.seed.write g0 v } = .next t' ∧
      ∀ g k, g < s.S → k < s.K →
        (g = g0 → t.out.read? (s.a2 g k) ≠ t'.out.read? (s.a2 g k)) ∧
        (g ≠ g0 → t.out.read? (s.a2 g k) = t'.out.read? (s.a2 g k))

/-! ### Arithmetic -/

/-- R87: bit `i` of the rotated word is bit `(i - r) mod 32` of the word. -/
def Obligations.RotationMovesEveryBit : Prop :=
  ∀ (x : Word) (r : Nat) (h : 1 ≤ r ∧ r ≤ 31) (i : Nat), i < 32 →
    (rotl32 x r h).getLsbD i = x.getLsbD ((i + 32 - r) % 32)

/-- R90: each of the listed maps is a bijection on words. -/
def Obligations.DatapathMapsAreBijections : Prop :=
  (∀ c : Word, Function.Bijective fun x => xor32 x c) ∧ (∀ c : Word, Function.Bijective fun x => add32 x c) ∧
  (∀ (r : Nat) (h : 1 ≤ r ∧ r ≤ 31), Function.Bijective fun x => rotl32 x r h) ∧
  (∀ m : Word, m.toNat % 2 = 1 → Function.Bijective fun x => mul32 x m) ∧
  (∀ (r : Nat) (h : 1 ≤ r ∧ r ≤ 31), Function.Bijective fun x => xor32 x (shr32 x r h.2))

/-- R174: with the key fixed the hash is a bijective function of the seed, and with the rest fixed it is a bijective
function of each word of the key. -/
def Obligations.HashIsBijectiveInSeedAndInEveryWord : Prop :=
  (∀ w0 ws, Function.Bijective fun sd => hash1 w0 ws sd) ∧
  (∀ ws sd, Function.Bijective fun x => hash1 x ws sd) ∧
  (∀ w0 before after sd, Function.Bijective fun x => hash1 w0 (before ++ x :: after) sd)

/-! ### Memory and layout -/

/-- R45: distinct elements never share a word. -/
def Obligations.LayoutIsInjective : Prop :=
  ∀ (s : State) (g k l g' k' l' : Nat), k < s.K → k' < s.K →
    (s.a2 g k = s.a2 g' k' → g = g' ∧ k = k') ∧
    (l < s.L → l' < s.L → s.a3 g k l = s.a3 g' k' l' → g = g' ∧ k = k' ∧ l = l')

/-- R49, R50: a word read back is the word last written there, and no other word changes; the canonical form is kept, and
memories that read alike are equal (log 1). -/
def Obligations.WordsReadBackAsWritten : Prop :=
  ∀ (m n : Memory) (a b : Nat) (v : Word), m.wf →
    (m.write a v).read? a = some v ∧ (b ≠ a → (m.write a v).read? b = m.read? b) ∧ (m.write a v).wf ∧
    (n.wf → (∀ c, m.read? c = n.read? c) → m = n)

/-- R47: four bytes of a buffer become one word, the first byte lowest. R48: a buffer whose length is no multiple of 4 cannot
be presented; that the function then answers nothing is the model's choice (log 26). -/
def Obligations.PackingIsLittleEndian : Prop :=
  ∀ bs : List Byte, (bs.length % 4 ≠ 0 → packLittleEndian bs = none) ∧
    (bs.length % 4 = 0 → ∃ ws, packLittleEndian bs = some ws ∧ 4 * ws.length = bs.length ∧
      ∀ j, j < ws.length → (ws.getD j 0).toNat =
        (bs.getD (4 * j) 0).toNat + 2 ^ 8 * (bs.getD (4 * j + 1) 0).toNat + 2 ^ 16 * (bs.getD (4 * j + 2) 0).toNat +
          2 ^ 24 * (bs.getD (4 * j + 3) 0).toNat)

/-! ### The host interface -/

/-- R25: the fields of `STATUS`; the reserved bits read as 0. -/
def Obligations.StatusWordHasTheFieldsOfTheTable : Prop :=
  ∀ s : State, (statusWord s).extractLsb' 0 2 = BitVec.ofNat 2 (match s.job with | .idle => 0 | .busy => 1 | .done => 2 | .error => 3) ∧
    (statusWord s).extractLsb' 2 2 = 0 ∧ (statusWord s).extractLsb' 4 4 = s.cause ∧
    (statusWord s).extractLsb' 8 8 = s.upc ∧ (statusWord s).extractLsb' 16 16 = 0

/-- R24 to R32, R72: a register written and read back while no job runs. A descriptor register returns what was written,
`NDIM` its two fields with the reserved bits 0, `CMD` 0; `STATUS` and `IDX` ignore the write. -/
def Obligations.RegistersReadBackAsTheTableSays : Prop :=
  ∀ (s : State) (n : HostReg) (v : Word) (rest : List Event), s.job ≠ .busy → n ≠ .cmd →
    s.events = .host (.wrr n v) :: .host (.rdr n) :: rest →
    ∃ t, runSteps 2 s = .next t ∧ t.events = rest ∧ t.reads =
      (match n with
        | .cmd => 0 | .status => statusWord s | .idx => s.idx
        | .ndim => v &&& 0x000000FF
        | .dimS | .dimK | .dimL | .seedN => v) :: s.reads ∧
      (∀ sp, t.space sp = s.space sp) ∧ t.job = s.job ∧ t.cause = s.cause ∧ t.upc = s.upc ∧ t.idx = s.idx ∧
      (n ≠ .dimS → t.dimS = s.dimS) ∧ (n ≠ .dimK → t.dimK = s.dimK) ∧ (n ≠ .dimL → t.dimL = s.dimL) ∧
      (n ≠ .seedN → t.seedN = s.seedN) ∧ (n ≠ .ndim → ndimWord t = ndimWord s)

/-- R24, R25, R31, R194, R210, U7: `STATUS` and `IDX` may be read at any time and change no architectural state; `CMD` reads as
0 and is refused while BUSY (R23, D19; log 28); in every state of the invariant a `STATUS` read while BUSY shows `STATE` 1,
`CAUSE` 0 and the code of a uop. (What `frozen` records: log 8.) -/
def Obligations.StatusAndIdxAreReadableAtAnyTime : Prop :=
  ∀ (s : State) (rest : List Event), Inv s →
    (s.events = .host (.rdr .status) :: rest →
      step s = .next { s with events := rest, reads := statusWord s :: s.reads,
                              frozen := if s.job = .busy then s.frozen else ⟨0, 0, 0⟩ } ∧
      (s.job = .busy → (statusWord s).extractLsb' 0 8 = 1 ∧ ∃ i, encode i = .uop ((statusWord s).extractLsb' 8 8))) ∧
    (s.events = .host (.rdr .idx) :: rest → step s = .next { s with events := rest, reads := s.idx :: s.reads }) ∧
    (s.events = .host (.rdr .cmd) :: rest →
      (s.job = .busy → step s = .refused (.registerReadWhileBusy .cmd)) ∧
      (s.job ≠ .busy → step s = .next { s with events := rest, reads := 0 :: s.reads }))

/-- R23, R208, R210, D19, U4: a host read of an existing word completes unless BUSY, and changes nothing the spec names. While BUSY
it completes for the job's `S*K` words of `OUT`, and any other read of a word is refused (of `KEY` and `SEED`: log 10). A word that
holds a value is returned as it stands unless BUSY and, in `OUT`, unless it is among the frozen ones, where the read gives a
free value (log 9). A read of a descriptor register returns it, and is refused while BUSY. -/
def Obligations.HostReadsCompleteUnlessBusyForbidsThem : Prop :=
  ∀ (s : State) (a : Nat) (n : HostReg) (v : Word) (rest : List Event),
    (∀ (sp : Space) (act : HostAction), (sp, act) ∈ [(Space.key, HostAction.rdk a), (.seed, .rds a), (.out, .rdo a)] →
      s.events = .host act :: rest →
      (s.job = .busy → (sp = .out → s.S * s.K ≤ a) → step s = .refused (.memoryReadWhileBusy sp)) ∧
      ((s.job = .busy → sp = .out ∧ a < s.S * s.K) → s.cfg.holds sp a = true →
        ∃ w, step s = .next { s with events := rest, reads := w :: s.reads, draws := s.draws + 1 } ∧
          (s.job ≠ .busy → (sp = .out → s.frozen.out ≤ a) → (s.space sp).read? a = some v → w = v))) ∧
    (n ∈ [HostReg.dimS, .dimK, .dimL, .seedN, .ndim] → s.events = .host (.rdr n) :: rest →
      (s.job = .busy → step s = .refused (.registerReadWhileBusy n)) ∧
      (s.job ≠ .busy → step s = .next { s with events := rest, reads :=
        (match n with
          | .dimS => s.dimS | .dimK => s.dimK | .dimL => s.dimL | .seedN => s.seedN | .ndim => ndimWord s
          | .cmd | .status | .idx => 0) :: s.reads }))

/-- R23, R207, R208, R209, R210, D19, U1, U4: while BUSY a write of a register other than `CMD` (of `STATUS` and `IDX`: log 11) or
of any word of `KEY`, `SEED` or `OUT` is refused; when no job runs, a host write of a word that is frozen since a HASH is
refused (log 8). -/
def Obligations.HostWritesAreRefusedWhileTheJobIsOpen : Prop :=
  ∀ (s : State) (a : Nat) (v : Word) (rest : List Event),
    (∀ n, s.job = .busy → n ≠ .cmd → s.events = .host (.wrr n v) :: rest →
      step s = .refused (.registerWriteWhileBusy n)) ∧
    (s.job = .busy ∨ a < s.frozen.key → s.events = .host (.wrk a v) :: rest →
      step s = .refused (.memoryWriteWhileJobOpen .key)) ∧
    (s.job = .busy ∨ a < s.frozen.seed → s.events = .host (.wrs a v) :: rest →
      step s = .refused (.memoryWriteWhileJobOpen .seed)) ∧
    (s.job = .busy ∨ a < s.frozen.out → s.events = .host (.wro a v) :: rest →
      step s = .refused (.memoryWriteWhileJobOpen .out))

/-- R40 to R42, R46, R50, R59: when no job runs, a host write of an existing word that is not frozen since a HASH changes that
word alone. (The write of `OUT`, which R70 does not name: log 12. That the freezing of `OUT` ends at a seen ERROR too: log 8.) -/
def Obligations.HostWritesOneWordOfOneSpace : Prop :=
  ∀ (s : State) (a n : Nat) (v : Word) (rest : List Event) (sp : Space) (act : HostAction), s.job ≠ .busy →
    (sp, act, n) ∈ [(Space.key, HostAction.wrk a v, s.frozen.key), (.seed, .wrs a v, s.frozen.seed),
      (.out, .wro a v, s.frozen.out)] → n ≤ a → s.cfg.holds sp a = true → s.events = .host act :: rest →
    ∃ t, step s = .next t ∧ (t.space sp).read? a = some v ∧ (∀ b, b ≠ a → (t.space sp).read? b = (s.space sp).read? b) ∧
      t = { s.setSpace sp (t.space sp) with events := rest }

/-- R53, R205, R208: once a `STATUS` read has shown that no job runs, a read of `OUT` returns the word it holds. (That this
holds after ERROR too, where R208 names DONE only: log 8.) -/
def Obligations.OutputIsReadableOnceTheEndIsSeen : Prop :=
  ∀ (s : State) (a : Nat) (v : Word) (rest : List Event), s.job ≠ .busy → s.out.read? a = some v →
    s.cfg.holds .out a = true → s.events = .host (.rdr .status) :: .host (.rdo a) :: rest →
    ∃ t, runSteps 2 s = .next t ∧ t.reads = v :: statusWord s :: s.reads ∧ t.events = rest ∧
      (∀ sp, t.space sp = s.space sp) ∧ statusWord t = statusWord s

/-- R70, R214: WAIT polls `STATUS`; while the poll shows BUSY the sequencer performs a uop before the next poll (log 6). -/
def Obligations.WaitPollsUntilTheJobEnds : Prop :=
  ∀ (s : State) (rest : List Event), s.events = .host .wait :: rest →
    ∃ t, step s = .next t ∧ t.reads = statusWord s :: s.reads ∧ statusWord t = statusWord s ∧
      (s.job = .busy → t.events = .slot :: .host .wait :: rest) ∧
      (s.job ≠ .busy → t.events = rest ∧ t.frozen = ⟨0, 0, 0⟩)
end

