-- ==== Sys2Proof/Laws/Alu.lean ====
section
/-! SUPPORT. The primitives of Machine/Alu.lean in terms of Lean's own bit-vector operations, and that the maps of R90 lose no
information. -/

namespace Sys2Proof.Machine

theorem mul32_eq_mul (a b : Word) : mul32 a b = a * b := by
  apply BitVec.eq_of_toNat_eq
  simp [mul32, narrow, BitVec.toNat_mul]

theorem add32_eq_add (a b : Word) : add32 a b = a + b := by
  apply BitVec.eq_of_toNat_eq
  simp [add32, narrow, BitVec.toNat_add]

theorem shl32_eq_shiftLeft (x : Word) (r : Nat) (h : r ≤ 31) : shl32 x r h = x <<< r := by
  apply BitVec.eq_of_toNat_eq
  simp [shl32, narrow, BitVec.toNat_shiftLeft, Nat.shiftLeft_eq]

theorem shr32_eq_ushiftRight (x : Word) (r : Nat) (h : r ≤ 31) : shr32 x r h = x >>> r := by
  apply BitVec.eq_of_toNat_eq
  have := Nat.div_le_self x.toNat (2 ^ r)
  have := x.isLt
  simp [shr32, narrow, BitVec.toNat_ushiftRight, Nat.shiftRight_eq_div_pow]
  omega

theorem rotl32_eq_rotateLeft (x : Word) (r : Nat) (h : 1 ≤ r ∧ r ≤ 31) : rotl32 x r h = x.rotateLeft r := by
  have hr : r % 32 = r := Nat.mod_eq_of_lt (by omega)
  simp [rotl32, or32, shl32_eq_shiftLeft, shr32_eq_ushiftRight, BitVec.rotateLeft_def, hr]

theorem len32_eq_mul (l : Nat) : len32 l = 4 * BitVec.ofNat 32 l := by
  apply BitVec.eq_of_toNat_eq
  simp [len32, narrow, BitVec.toNat_mul, Nat.mul_mod]

end Sys2Proof.Machine
end

