-- ==== Sys2Proof/Laws/Memory.lean ====
section
/-! SUPPORT. The laws of a memory: a read after a write, the canonical form, and that equal contents are equal data. -/

namespace Sys2Proof.Machine.Memory

@[simp] theorem read?_nil (a : Nat) : Memory.read? [] a = none := rfl

theorem read?_write_self (m : Memory) (a : Nat) (v : Word) : (m.write a v).read? a = some v := by
  induction m with
  | nil => simp [write, read?]
  | cons c m ih =>
    obtain ⟨b, w⟩ := c
    simp only [write]
    split
    · simp [read?]
    · split
      · simp [read?]
      · simp [read?, *]

theorem read?_write_ne (m : Memory) {a b : Nat} (v : Word) (h : b ≠ a) : (m.write a v).read? b = m.read? b := by
  induction m with
  | nil => simp [write, read?, h]
  | cons c m ih =>
    obtain ⟨d, w⟩ := c
    simp only [write]
    split
    · simp [read?, h]
    · split
      · subst d; simp [read?, h]
      · simp [read?, ih]

/-- A read after a write, both cases. -/
theorem read?_write (m : Memory) (a b : Nat) (v : Word) :
    (m.write a v).read? b = if b = a then some v else m.read? b := by
  split
  · subst b; exact read?_write_self m a v
  · exact read?_write_ne m v ‹_›

/-- The indices of the listed words after a write. -/
theorem mem_write {m : Memory} {a : Nat} {v : Word} {c : Nat × Word} (h : c ∈ m.write a v) : c.1 = a ∨ c ∈ m := by
  induction m with
  | nil => simp [write] at h; simp [h]
  | cons d m ih =>
    obtain ⟨b, w⟩ := d
    simp only [write] at h
    split at h
    · rcases List.mem_cons.1 h with rfl | h
      · exact .inl rfl
      · exact .inr h
    · split at h
      · rcases List.mem_cons.1 h with rfl | h
        · exact .inl rfl
        · exact .inr (List.mem_cons_of_mem _ h)
      · rcases List.mem_cons.1 h with rfl | h
        · exact .inr List.mem_cons_self
        · exact (ih h).imp_right (List.mem_cons_of_mem _)

theorem wf_nil : Memory.wf [] := List.Pairwise.nil

/-- A write keeps the canonical form. -/
theorem wf_write {m : Memory} (h : m.wf) (a : Nat) (v : Word) : (m.write a v).wf := by
  induction m with
  | nil => simp [wf, write]
  | cons d m ih =>
    obtain ⟨b, w⟩ := d
    have hb := (List.pairwise_cons.1 h).1
    have hm := (List.pairwise_cons.1 h).2
    simp only [write]
    split
    · rename_i hlt
      refine List.pairwise_cons.2 ⟨fun c hc => ?_, h⟩
      rcases List.mem_cons.1 hc with rfl | hc
      · exact hlt
      · exact Nat.lt_trans hlt (hb c hc)
    · split
      · subst b; exact List.pairwise_cons.2 ⟨hb, hm⟩
      · refine List.pairwise_cons.2 ⟨fun c hc => ?_, ih hm⟩
        rcases mem_write hc with h1 | h1
        · simp only [h1]; omega
        · exact hb c h1

@[simp] theorem storeAll_nil (m : Memory) : m.storeAll [] = m := rfl

theorem storeAll_append (m : Memory) (xs ys : List (Nat × Word)) :
    m.storeAll (xs ++ ys) = (m.storeAll xs).storeAll ys := List.foldl_append

/-- Storing many words keeps the canonical form. -/
theorem wf_storeAll {m : Memory} (h : m.wf) (cells : List (Nat × Word)) : (m.storeAll cells).wf := by
  induction cells generalizing m with
  | nil => exact h
  | cons c cs ih => exact ih (wf_write h c.1 c.2)

theorem mem_storeAll {m : Memory} {cells : List (Nat × Word)} {c : Nat × Word} (h : c ∈ m.storeAll cells) :
    (∃ d ∈ cells, c.1 = d.1) ∨ c ∈ m := by
  induction cells generalizing m with
  | nil => exact .inr h
  | cons d ds ih =>
    rcases ih h with ⟨e, he, hc⟩ | h
    · exact .inl ⟨e, List.mem_cons_of_mem _ he, hc⟩
    · rcases mem_write h with h | h
      · exact .inl ⟨d, List.mem_cons_self, h⟩
      · exact .inr h

/-- Storing words 0 to `n - 1` in turn: word `p` gets its value, the words from `n` on keep theirs. -/
theorem read?_storeAll_range (m : Memory) (n : Nat) (addr : Nat → Nat) (val : Nat → Word)
    (h : ∀ p, p < n → addr p = p) (a : Nat) :
    (m.storeAll ((List.range n).map fun p => (addr p, val p))).read? a = if a < n then some (val a) else m.read? a := by
  induction n with
  | zero => simp
  | succ n ih =>
    rw [List.range_succ, List.map_append, storeAll_append]
    simp only [List.map_cons, List.map_nil, storeAll, List.foldl_cons, List.foldl_nil]
    rw [read?_write, h n (Nat.lt_succ_self n)]
    have := ih fun p hp => h p (by omega)
    simp only [storeAll] at this
    split
    · subst a; simp
    · rw [this]
      split <;> split <;> first | rfl | omega

theorem read?_eq_none_of_lt {m : Memory} {a : Nat} (h : ∀ c ∈ m, a < c.1) : m.read? a = none := by
  induction m with
  | nil => rfl
  | cons c m ih =>
    have h1 := h c List.mem_cons_self
    have h2 : ¬ a = c.1 := by omega
    simp [read?, h2, ih fun d hd => h d (List.mem_cons_of_mem _ hd)]

/-- A listed word is one that reads as a value. -/
theorem isSome_read?_iff {m : Memory} {a : Nat} : (m.read? a).isSome = true ↔ ∃ c ∈ m, c.1 = a := by
  induction m with
  | nil => simp
  | cons c m ih =>
    obtain ⟨b, w⟩ := c
    by_cases h : a = b
    · subst h; simp [read?]
    · simp only [read?, h, if_false, ih, List.mem_cons, exists_eq_or_imp]
      exact ⟨.inr, fun h' => h'.resolve_left fun e => h e.symm⟩

/-- Canonical memories that read alike everywhere are the same list. -/
theorem ext {m n : Memory} (hm : m.wf) (hn : n.wf) (h : ∀ a, m.read? a = n.read? a) : m = n := by
  induction m generalizing n with
  | nil =>
    cases n with
    | nil => rfl
    | cons d n => have := h d.1; simp [read?] at this
  | cons c m ih =>
    obtain ⟨b, w⟩ := c
    cases n with
    | nil => have := h b; simp [read?] at this
    | cons d n =>
      obtain ⟨e, x⟩ := d
      have hb := (List.pairwise_cons.1 hm).1
      have he := (List.pairwise_cons.1 hn).1
      have hbe : b = e := by
        rcases Nat.lt_trichotomy b e with hlt | heq | hgt
        · have h1 := h b
          rw [read?_eq_none_of_lt (m := (e, x) :: n)] at h1
          · simp [read?] at h1
          · intro c hc
            rcases List.mem_cons.1 hc with rfl | hc
            · exact hlt
            · exact Nat.lt_trans hlt (he c hc)
        · exact heq
        · have h1 := h e
          rw [read?_eq_none_of_lt (m := (b, w) :: m)] at h1
          · simp [read?] at h1
          · intro c hc
            rcases List.mem_cons.1 hc with rfl | hc
            · exact hgt
            · exact Nat.lt_trans hgt (hb c hc)
      subst e
      have hw : w = x := by have h1 := h b; simpa [read?] using h1
      subst x
      congr 1
      refine ih (List.pairwise_cons.1 hm).2 (List.pairwise_cons.1 hn).2 fun a => ?_
      by_cases hab : a = b
      · subst a
        rw [read?_eq_none_of_lt hb, read?_eq_none_of_lt he]
      · have h1 := h a
        simpa [read?, hab] using h1

end Sys2Proof.Machine.Memory
end

