-- ==== Sys2Proof/Laws/State.lean ====
section
/-! SUPPORT. One small lemma per field per update of the state, so that no later proof unfolds a record update. -/

namespace Sys2Proof.Machine

/-! ### Reading and replacing a space -/

@[simp] theorem State.space_key (s : State) : s.space .key = s.key := rfl
@[simp] theorem State.space_seed (s : State) : s.space .seed = s.seed := rfl
@[simp] theorem State.space_work (s : State) : s.space .work = s.work := rfl
@[simp] theorem State.space_h1 (s : State) : s.space .h1 = s.h1 := rfl
@[simp] theorem State.space_out (s : State) : s.space .out = s.out := rfl

@[simp] theorem State.space_setSpace_self (s : State) (sp : Space) (m : Memory) : (s.setSpace sp m).space sp = m := by
  cases sp <;> rfl

theorem State.space_setSpace_ne (s : State) {sp sq : Space} (m : Memory) (h : sq ≠ sp) :
    (s.setSpace sp m).space sq = s.space sq := by
  cases sp <;> cases sq <;> first | rfl | exact absurd rfl h

@[simp] theorem State.setSpace_cfg (s : State) (sp : Space) (m : Memory) : (s.setSpace sp m).cfg = s.cfg := by cases sp <;> rfl
@[simp] theorem State.setSpace_dimS (s : State) (sp : Space) (m : Memory) : (s.setSpace sp m).dimS = s.dimS := by cases sp <;> rfl
@[simp] theorem State.setSpace_dimK (s : State) (sp : Space) (m : Memory) : (s.setSpace sp m).dimK = s.dimK := by cases sp <;> rfl
@[simp] theorem State.setSpace_dimL (s : State) (sp : Space) (m : Memory) : (s.setSpace sp m).dimL = s.dimL := by cases sp <;> rfl
@[simp] theorem State.setSpace_seedN (s : State) (sp : Space) (m : Memory) : (s.setSpace sp m).seedN = s.seedN := by cases sp <;> rfl
@[simp] theorem State.setSpace_keyNdim (s : State) (sp : Space) (m : Memory) : (s.setSpace sp m).keyNdim = s.keyNdim := by cases sp <;> rfl
@[simp] theorem State.setSpace_seedNdim (s : State) (sp : Space) (m : Memory) : (s.setSpace sp m).seedNdim = s.seedNdim := by cases sp <;> rfl
@[simp] theorem State.setSpace_idx (s : State) (sp : Space) (m : Memory) : (s.setSpace sp m).idx = s.idx := by cases sp <;> rfl
@[simp] theorem State.setSpace_upc (s : State) (sp : Space) (m : Memory) : (s.setSpace sp m).upc = s.upc := by cases sp <;> rfl
@[simp] theorem State.setSpace_job (s : State) (sp : Space) (m : Memory) : (s.setSpace sp m).job = s.job := by cases sp <;> rfl
@[simp] theorem State.setSpace_cause (s : State) (sp : Space) (m : Memory) : (s.setSpace sp m).cause = s.cause := by cases sp <;> rfl
@[simp] theorem State.setSpace_frozen (s : State) (sp : Space) (m : Memory) : (s.setSpace sp m).frozen = s.frozen := by cases sp <;> rfl
@[simp] theorem State.setSpace_events (s : State) (sp : Space) (m : Memory) : (s.setSpace sp m).events = s.events := by cases sp <;> rfl
@[simp] theorem State.setSpace_reads (s : State) (sp : Space) (m : Memory) : (s.setSpace sp m).reads = s.reads := by cases sp <;> rfl
@[simp] theorem State.setSpace_draws (s : State) (sp : Space) (m : Memory) : (s.setSpace sp m).draws = s.draws := by cases sp <;> rfl

/-! ### `forall2` and `forall3` -/

theorem State.space_forall2_self (s : State) (dst : Space) (f : Nat → Nat → Word) :
    (s.forall2 dst f).space dst = (s.space dst).storeAll (s.idx2.map fun p => (s.a2 p.1 p.2, f p.1 p.2)) := by
  cases dst <;> rfl

theorem State.space_forall2_ne (s : State) {dst sq : Space} (f : Nat → Nat → Word) (h : sq ≠ dst) :
    (s.forall2 dst f).space sq = s.space sq := by
  cases dst <;> cases sq <;> first | rfl | exact absurd rfl h

theorem State.space_forall3_self (s : State) (dst : Space) (f : Nat → Nat → Nat → Word) :
    (s.forall3 dst f).space dst =
      (s.space dst).storeAll (s.idx3.map fun p => (s.a3 p.1 p.2.1 p.2.2, f p.1 p.2.1 p.2.2)) := by
  cases dst <;> rfl

theorem State.space_forall3_ne (s : State) {dst sq : Space} (f : Nat → Nat → Nat → Word) (h : sq ≠ dst) :
    (s.forall3 dst f).space sq = s.space sq := by
  cases dst <;> cases sq <;> first | rfl | exact absurd rfl h

@[simp] theorem State.forall2_cfg (s : State) (d : Space) (f : Nat → Nat → Word) : (s.forall2 d f).cfg = s.cfg := by cases d <;> rfl
@[simp] theorem State.forall2_dimS (s : State) (d : Space) (f : Nat → Nat → Word) : (s.forall2 d f).dimS = s.dimS := by cases d <;> rfl
@[simp] theorem State.forall2_dimK (s : State) (d : Space) (f : Nat → Nat → Word) : (s.forall2 d f).dimK = s.dimK := by cases d <;> rfl
@[simp] theorem State.forall2_dimL (s : State) (d : Space) (f : Nat → Nat → Word) : (s.forall2 d f).dimL = s.dimL := by cases d <;> rfl
@[simp] theorem State.forall2_seedN (s : State) (d : Space) (f : Nat → Nat → Word) : (s.forall2 d f).seedN = s.seedN := by cases d <;> rfl
@[simp] theorem State.forall2_keyNdim (s : State) (d : Space) (f : Nat → Nat → Word) : (s.forall2 d f).keyNdim = s.keyNdim := by cases d <;> rfl
@[simp] theorem State.forall2_seedNdim (s : State) (d : Space) (f : Nat → Nat → Word) : (s.forall2 d f).seedNdim = s.seedNdim := by cases d <;> rfl
@[simp] theorem State.forall2_idx (s : State) (d : Space) (f : Nat → Nat → Word) : (s.forall2 d f).idx = s.idx := by cases d <;> rfl
@[simp] theorem State.forall2_upc (s : State) (d : Space) (f : Nat → Nat → Word) : (s.forall2 d f).upc = s.upc := by cases d <;> rfl
@[simp] theorem State.forall2_job (s : State) (d : Space) (f : Nat → Nat → Word) : (s.forall2 d f).job = s.job := by cases d <;> rfl
@[simp] theorem State.forall2_cause (s : State) (d : Space) (f : Nat → Nat → Word) : (s.forall2 d f).cause = s.cause := by cases d <;> rfl
@[simp] theorem State.forall2_frozen (s : State) (d : Space) (f : Nat → Nat → Word) : (s.forall2 d f).frozen = s.frozen := by cases d <;> rfl
@[simp] theorem State.forall2_events (s : State) (d : Space) (f : Nat → Nat → Word) : (s.forall2 d f).events = s.events := by cases d <;> rfl
@[simp] theorem State.forall2_reads (s : State) (d : Space) (f : Nat → Nat → Word) : (s.forall2 d f).reads = s.reads := by cases d <;> rfl
@[simp] theorem State.forall2_draws (s : State) (d : Space) (f : Nat → Nat → Word) : (s.forall2 d f).draws = s.draws + 1 := rfl
@[simp] theorem State.forall3_cfg (s : State) (d : Space) (f : Nat → Nat → Nat → Word) : (s.forall3 d f).cfg = s.cfg := by cases d <;> rfl
@[simp] theorem State.forall3_dimS (s : State) (d : Space) (f : Nat → Nat → Nat → Word) : (s.forall3 d f).dimS = s.dimS := by cases d <;> rfl
@[simp] theorem State.forall3_dimK (s : State) (d : Space) (f : Nat → Nat → Nat → Word) : (s.forall3 d f).dimK = s.dimK := by cases d <;> rfl
@[simp] theorem State.forall3_dimL (s : State) (d : Space) (f : Nat → Nat → Nat → Word) : (s.forall3 d f).dimL = s.dimL := by cases d <;> rfl
@[simp] theorem State.forall3_seedN (s : State) (d : Space) (f : Nat → Nat → Nat → Word) : (s.forall3 d f).seedN = s.seedN := by cases d <;> rfl
@[simp] theorem State.forall3_keyNdim (s : State) (d : Space) (f : Nat → Nat → Nat → Word) : (s.forall3 d f).keyNdim = s.keyNdim := by cases d <;> rfl
@[simp] theorem State.forall3_seedNdim (s : State) (d : Space) (f : Nat → Nat → Nat → Word) : (s.forall3 d f).seedNdim = s.seedNdim := by cases d <;> rfl
@[simp] theorem State.forall3_idx (s : State) (d : Space) (f : Nat → Nat → Nat → Word) : (s.forall3 d f).idx = s.idx := by cases d <;> rfl
@[simp] theorem State.forall3_upc (s : State) (d : Space) (f : Nat → Nat → Nat → Word) : (s.forall3 d f).upc = s.upc := by cases d <;> rfl
@[simp] theorem State.forall3_job (s : State) (d : Space) (f : Nat → Nat → Nat → Word) : (s.forall3 d f).job = s.job := by cases d <;> rfl
@[simp] theorem State.forall3_cause (s : State) (d : Space) (f : Nat → Nat → Nat → Word) : (s.forall3 d f).cause = s.cause := by cases d <;> rfl
@[simp] theorem State.forall3_frozen (s : State) (d : Space) (f : Nat → Nat → Nat → Word) : (s.forall3 d f).frozen = s.frozen := by cases d <;> rfl
@[simp] theorem State.forall3_events (s : State) (d : Space) (f : Nat → Nat → Nat → Word) : (s.forall3 d f).events = s.events := by cases d <;> rfl
@[simp] theorem State.forall3_reads (s : State) (d : Space) (f : Nat → Nat → Nat → Word) : (s.forall3 d f).reads = s.reads := by cases d <;> rfl
@[simp] theorem State.forall3_draws (s : State) (d : Space) (f : Nat → Nat → Nat → Word) : (s.forall3 d f).draws = s.draws + 1 := rfl

/-! ### `goto` -/

@[simp] theorem State.goto_cfg (s : State) (b : Byte) : (s.goto b).cfg = s.cfg := rfl
@[simp] theorem State.goto_key (s : State) (b : Byte) : (s.goto b).key = s.key := rfl
@[simp] theorem State.goto_seed (s : State) (b : Byte) : (s.goto b).seed = s.seed := rfl
@[simp] theorem State.goto_work (s : State) (b : Byte) : (s.goto b).work = s.work := rfl
@[simp] theorem State.goto_h1 (s : State) (b : Byte) : (s.goto b).h1 = s.h1 := rfl
@[simp] theorem State.goto_out (s : State) (b : Byte) : (s.goto b).out = s.out := rfl
@[simp] theorem State.goto_dimS (s : State) (b : Byte) : (s.goto b).dimS = s.dimS := rfl
@[simp] theorem State.goto_dimK (s : State) (b : Byte) : (s.goto b).dimK = s.dimK := rfl
@[simp] theorem State.goto_dimL (s : State) (b : Byte) : (s.goto b).dimL = s.dimL := rfl
@[simp] theorem State.goto_seedN (s : State) (b : Byte) : (s.goto b).seedN = s.seedN := rfl
@[simp] theorem State.goto_keyNdim (s : State) (b : Byte) : (s.goto b).keyNdim = s.keyNdim := rfl
@[simp] theorem State.goto_seedNdim (s : State) (b : Byte) : (s.goto b).seedNdim = s.seedNdim := rfl
@[simp] theorem State.goto_idx (s : State) (b : Byte) : (s.goto b).idx = s.idx := rfl
@[simp] theorem State.goto_upc (s : State) (b : Byte) : (s.goto b).upc = b := rfl
@[simp] theorem State.goto_job (s : State) (b : Byte) : (s.goto b).job = s.job := rfl
@[simp] theorem State.goto_cause (s : State) (b : Byte) : (s.goto b).cause = s.cause := rfl
@[simp] theorem State.goto_frozen (s : State) (b : Byte) : (s.goto b).frozen = s.frozen := rfl
@[simp] theorem State.goto_events (s : State) (b : Byte) : (s.goto b).events = s.events := rfl
@[simp] theorem State.goto_reads (s : State) (b : Byte) : (s.goto b).reads = s.reads := rfl
@[simp] theorem State.goto_draws (s : State) (b : Byte) : (s.goto b).draws = s.draws := rfl

/-! ### `raiseContractError` -/

@[simp] theorem raiseContractError_cfg (m : BitVec 4) (s : State) : (raiseContractError m s).cfg = s.cfg := rfl
@[simp] theorem raiseContractError_key (m : BitVec 4) (s : State) : (raiseContractError m s).key = s.key := rfl
@[simp] theorem raiseContractError_seed (m : BitVec 4) (s : State) : (raiseContractError m s).seed = s.seed := rfl
@[simp] theorem raiseContractError_work (m : BitVec 4) (s : State) : (raiseContractError m s).work = s.work := rfl
@[simp] theorem raiseContractError_h1 (m : BitVec 4) (s : State) : (raiseContractError m s).h1 = s.h1 := rfl
@[simp] theorem raiseContractError_out (m : BitVec 4) (s : State) : (raiseContractError m s).out = s.out := rfl
@[simp] theorem raiseContractError_dimS (m : BitVec 4) (s : State) : (raiseContractError m s).dimS = s.dimS := rfl
@[simp] theorem raiseContractError_dimK (m : BitVec 4) (s : State) : (raiseContractError m s).dimK = s.dimK := rfl
@[simp] theorem raiseContractError_dimL (m : BitVec 4) (s : State) : (raiseContractError m s).dimL = s.dimL := rfl
@[simp] theorem raiseContractError_seedN (m : BitVec 4) (s : State) : (raiseContractError m s).seedN = s.seedN := rfl
@[simp] theorem raiseContractError_keyNdim (m : BitVec 4) (s : State) : (raiseContractError m s).keyNdim = s.keyNdim := rfl
@[simp] theorem raiseContractError_seedNdim (m : BitVec 4) (s : State) : (raiseContractError m s).seedNdim = s.seedNdim := rfl
@[simp] theorem raiseContractError_idx (m : BitVec 4) (s : State) : (raiseContractError m s).idx = s.idx := rfl
@[simp] theorem raiseContractError_upc (m : BitVec 4) (s : State) : (raiseContractError m s).upc = 0x00 := rfl
@[simp] theorem raiseContractError_job (m : BitVec 4) (s : State) : (raiseContractError m s).job = .error := rfl
@[simp] theorem raiseContractError_cause (m : BitVec 4) (s : State) : (raiseContractError m s).cause = m := rfl
@[simp] theorem raiseContractError_frozen (m : BitVec 4) (s : State) : (raiseContractError m s).frozen = s.frozen := rfl
@[simp] theorem raiseContractError_events (m : BitVec 4) (s : State) : (raiseContractError m s).events = s.events := rfl
@[simp] theorem raiseContractError_reads (m : BitVec 4) (s : State) : (raiseContractError m s).reads = s.reads := rfl
@[simp] theorem raiseContractError_draws (m : BitVec 4) (s : State) : (raiseContractError m s).draws = s.draws := rfl

/-! ### `beginJob` -/

@[simp] theorem beginJob_cfg (s : State) : (beginJob s).cfg = s.cfg := rfl
@[simp] theorem beginJob_key (s : State) : (beginJob s).key = s.key := rfl
@[simp] theorem beginJob_seed (s : State) : (beginJob s).seed = s.seed := rfl
@[simp] theorem beginJob_work (s : State) : (beginJob s).work = s.work := rfl
@[simp] theorem beginJob_h1 (s : State) : (beginJob s).h1 = s.h1 := rfl
@[simp] theorem beginJob_out (s : State) : (beginJob s).out = s.out := rfl
@[simp] theorem beginJob_dimS (s : State) : (beginJob s).dimS = s.dimS := rfl
@[simp] theorem beginJob_dimK (s : State) : (beginJob s).dimK = s.dimK := rfl
@[simp] theorem beginJob_dimL (s : State) : (beginJob s).dimL = s.dimL := rfl
@[simp] theorem beginJob_seedN (s : State) : (beginJob s).seedN = s.seedN := rfl
@[simp] theorem beginJob_keyNdim (s : State) : (beginJob s).keyNdim = s.keyNdim := rfl
@[simp] theorem beginJob_seedNdim (s : State) : (beginJob s).seedNdim = s.seedNdim := rfl
@[simp] theorem beginJob_idx (s : State) : (beginJob s).idx = 0 := rfl
@[simp] theorem beginJob_upc (s : State) : (beginJob s).upc = 0x01 := rfl
@[simp] theorem beginJob_job (s : State) : (beginJob s).job = .busy := rfl
@[simp] theorem beginJob_cause (s : State) : (beginJob s).cause = 0 := rfl
@[simp] theorem beginJob_frozen (s : State) : (beginJob s).frozen = ⟨max s.frozen.key s.words3, max s.frozen.seed s.S, max s.frozen.out s.words2⟩ := rfl
@[simp] theorem beginJob_events (s : State) : (beginJob s).events = s.events := rfl
@[simp] theorem beginJob_reads (s : State) : (beginJob s).reads = s.reads := rfl
@[simp] theorem beginJob_draws (s : State) : (beginJob s).draws = s.draws := rfl

/-! ### `resetBlock` -/

@[simp] theorem resetBlock_cfg (s : State) : (resetBlock s).cfg = s.cfg := rfl
@[simp] theorem resetBlock_key (s : State) : (resetBlock s).key = s.key := rfl
@[simp] theorem resetBlock_seed (s : State) : (resetBlock s).seed = s.seed := rfl
@[simp] theorem resetBlock_work (s : State) : (resetBlock s).work = [] := rfl
@[simp] theorem resetBlock_h1 (s : State) : (resetBlock s).h1 = [] := rfl
@[simp] theorem resetBlock_out (s : State) : (resetBlock s).out = if s.job = .busy then [] else s.out := rfl
@[simp] theorem resetBlock_dimS (s : State) : (resetBlock s).dimS = 0 := rfl
@[simp] theorem resetBlock_dimK (s : State) : (resetBlock s).dimK = 0 := rfl
@[simp] theorem resetBlock_dimL (s : State) : (resetBlock s).dimL = 0 := rfl
@[simp] theorem resetBlock_seedN (s : State) : (resetBlock s).seedN = 0 := rfl
@[simp] theorem resetBlock_keyNdim (s : State) : (resetBlock s).keyNdim = 0 := rfl
@[simp] theorem resetBlock_seedNdim (s : State) : (resetBlock s).seedNdim = 0 := rfl
@[simp] theorem resetBlock_idx (s : State) : (resetBlock s).idx = 0 := rfl
@[simp] theorem resetBlock_upc (s : State) : (resetBlock s).upc = 0x00 := rfl
@[simp] theorem resetBlock_job (s : State) : (resetBlock s).job = .idle := rfl
@[simp] theorem resetBlock_cause (s : State) : (resetBlock s).cause = 0 := rfl
@[simp] theorem resetBlock_frozen (s : State) : (resetBlock s).frozen = ⟨0, 0, 0⟩ := rfl
@[simp] theorem resetBlock_events (s : State) : (resetBlock s).events = s.events := rfl
@[simp] theorem resetBlock_reads (s : State) : (resetBlock s).reads = s.reads := rfl
@[simp] theorem resetBlock_draws (s : State) : (resetBlock s).draws = s.draws := rfl

/-! ### `deliverRead` -/

@[simp] theorem deliverRead_cfg (v : Word) (s : State) : (deliverRead v s).cfg = s.cfg := rfl
@[simp] theorem deliverRead_key (v : Word) (s : State) : (deliverRead v s).key = s.key := rfl
@[simp] theorem deliverRead_seed (v : Word) (s : State) : (deliverRead v s).seed = s.seed := rfl
@[simp] theorem deliverRead_work (v : Word) (s : State) : (deliverRead v s).work = s.work := rfl
@[simp] theorem deliverRead_h1 (v : Word) (s : State) : (deliverRead v s).h1 = s.h1 := rfl
@[simp] theorem deliverRead_out (v : Word) (s : State) : (deliverRead v s).out = s.out := rfl
@[simp] theorem deliverRead_dimS (v : Word) (s : State) : (deliverRead v s).dimS = s.dimS := rfl
@[simp] theorem deliverRead_dimK (v : Word) (s : State) : (deliverRead v s).dimK = s.dimK := rfl
@[simp] theorem deliverRead_dimL (v : Word) (s : State) : (deliverRead v s).dimL = s.dimL := rfl
@[simp] theorem deliverRead_seedN (v : Word) (s : State) : (deliverRead v s).seedN = s.seedN := rfl
@[simp] theorem deliverRead_keyNdim (v : Word) (s : State) : (deliverRead v s).keyNdim = s.keyNdim := rfl
@[simp] theorem deliverRead_seedNdim (v : Word) (s : State) : (deliverRead v s).seedNdim = s.seedNdim := rfl
@[simp] theorem deliverRead_idx (v : Word) (s : State) : (deliverRead v s).idx = s.idx := rfl
@[simp] theorem deliverRead_upc (v : Word) (s : State) : (deliverRead v s).upc = s.upc := rfl
@[simp] theorem deliverRead_job (v : Word) (s : State) : (deliverRead v s).job = s.job := rfl
@[simp] theorem deliverRead_cause (v : Word) (s : State) : (deliverRead v s).cause = s.cause := rfl
@[simp] theorem deliverRead_frozen (v : Word) (s : State) : (deliverRead v s).frozen = s.frozen := rfl
@[simp] theorem deliverRead_events (v : Word) (s : State) : (deliverRead v s).events = s.events := rfl
@[simp] theorem deliverRead_reads (v : Word) (s : State) : (deliverRead v s).reads = v :: s.reads := rfl
@[simp] theorem deliverRead_draws (v : Word) (s : State) : (deliverRead v s).draws = s.draws := rfl

/-! ### `deliverFree` -/

@[simp] theorem deliverFree_cfg (v : Word) (s : State) : (deliverFree v s).cfg = s.cfg := rfl
@[simp] theorem deliverFree_key (v : Word) (s : State) : (deliverFree v s).key = s.key := rfl
@[simp] theorem deliverFree_seed (v : Word) (s : State) : (deliverFree v s).seed = s.seed := rfl
@[simp] theorem deliverFree_work (v : Word) (s : State) : (deliverFree v s).work = s.work := rfl
@[simp] theorem deliverFree_h1 (v : Word) (s : State) : (deliverFree v s).h1 = s.h1 := rfl
@[simp] theorem deliverFree_out (v : Word) (s : State) : (deliverFree v s).out = s.out := rfl
@[simp] theorem deliverFree_dimS (v : Word) (s : State) : (deliverFree v s).dimS = s.dimS := rfl
@[simp] theorem deliverFree_dimK (v : Word) (s : State) : (deliverFree v s).dimK = s.dimK := rfl
@[simp] theorem deliverFree_dimL (v : Word) (s : State) : (deliverFree v s).dimL = s.dimL := rfl
@[simp] theorem deliverFree_seedN (v : Word) (s : State) : (deliverFree v s).seedN = s.seedN := rfl
@[simp] theorem deliverFree_keyNdim (v : Word) (s : State) : (deliverFree v s).keyNdim = s.keyNdim := rfl
@[simp] theorem deliverFree_seedNdim (v : Word) (s : State) : (deliverFree v s).seedNdim = s.seedNdim := rfl
@[simp] theorem deliverFree_idx (v : Word) (s : State) : (deliverFree v s).idx = s.idx := rfl
@[simp] theorem deliverFree_upc (v : Word) (s : State) : (deliverFree v s).upc = s.upc := rfl
@[simp] theorem deliverFree_job (v : Word) (s : State) : (deliverFree v s).job = s.job := rfl
@[simp] theorem deliverFree_cause (v : Word) (s : State) : (deliverFree v s).cause = s.cause := rfl
@[simp] theorem deliverFree_frozen (v : Word) (s : State) : (deliverFree v s).frozen = s.frozen := rfl
@[simp] theorem deliverFree_events (v : Word) (s : State) : (deliverFree v s).events = s.events := rfl
@[simp] theorem deliverFree_reads (v : Word) (s : State) : (deliverFree v s).reads = v :: s.reads := rfl
@[simp] theorem deliverFree_draws (v : Word) (s : State) : (deliverFree v s).draws = s.draws + 1 := rfl

/-! ### `readStatus` -/

@[simp] theorem readStatus_cfg (s : State) : (readStatus s).cfg = s.cfg := rfl
@[simp] theorem readStatus_key (s : State) : (readStatus s).key = s.key := rfl
@[simp] theorem readStatus_seed (s : State) : (readStatus s).seed = s.seed := rfl
@[simp] theorem readStatus_work (s : State) : (readStatus s).work = s.work := rfl
@[simp] theorem readStatus_h1 (s : State) : (readStatus s).h1 = s.h1 := rfl
@[simp] theorem readStatus_out (s : State) : (readStatus s).out = s.out := rfl
@[simp] theorem readStatus_dimS (s : State) : (readStatus s).dimS = s.dimS := rfl
@[simp] theorem readStatus_dimK (s : State) : (readStatus s).dimK = s.dimK := rfl
@[simp] theorem readStatus_dimL (s : State) : (readStatus s).dimL = s.dimL := rfl
@[simp] theorem readStatus_seedN (s : State) : (readStatus s).seedN = s.seedN := rfl
@[simp] theorem readStatus_keyNdim (s : State) : (readStatus s).keyNdim = s.keyNdim := rfl
@[simp] theorem readStatus_seedNdim (s : State) : (readStatus s).seedNdim = s.seedNdim := rfl
@[simp] theorem readStatus_idx (s : State) : (readStatus s).idx = s.idx := rfl
@[simp] theorem readStatus_upc (s : State) : (readStatus s).upc = s.upc := rfl
@[simp] theorem readStatus_job (s : State) : (readStatus s).job = s.job := rfl
@[simp] theorem readStatus_cause (s : State) : (readStatus s).cause = s.cause := rfl
@[simp] theorem readStatus_frozen (s : State) : (readStatus s).frozen = if s.job = .busy then s.frozen else ⟨0, 0, 0⟩ := rfl
@[simp] theorem readStatus_events (s : State) : (readStatus s).events = s.events := rfl
@[simp] theorem readStatus_reads (s : State) : (readStatus s).reads = statusWord s :: s.reads := rfl
@[simp] theorem readStatus_draws (s : State) : (readStatus s).draws = s.draws := rfl

/-! ### `setRegister`: a descriptor register write changes no other kind of state -/

@[simp] theorem setRegister_cfg (n : HostReg) (v : Word) (s : State) : (setRegister n v s).cfg = s.cfg := by cases n <;> rfl
@[simp] theorem setRegister_key (n : HostReg) (v : Word) (s : State) : (setRegister n v s).key = s.key := by cases n <;> rfl
@[simp] theorem setRegister_seed (n : HostReg) (v : Word) (s : State) : (setRegister n v s).seed = s.seed := by cases n <;> rfl
@[simp] theorem setRegister_work (n : HostReg) (v : Word) (s : State) : (setRegister n v s).work = s.work := by cases n <;> rfl
@[simp] theorem setRegister_h1 (n : HostReg) (v : Word) (s : State) : (setRegister n v s).h1 = s.h1 := by cases n <;> rfl
@[simp] theorem setRegister_out (n : HostReg) (v : Word) (s : State) : (setRegister n v s).out = s.out := by cases n <;> rfl
@[simp] theorem setRegister_idx (n : HostReg) (v : Word) (s : State) : (setRegister n v s).idx = s.idx := by cases n <;> rfl
@[simp] theorem setRegister_upc (n : HostReg) (v : Word) (s : State) : (setRegister n v s).upc = s.upc := by cases n <;> rfl
@[simp] theorem setRegister_job (n : HostReg) (v : Word) (s : State) : (setRegister n v s).job = s.job := by cases n <;> rfl
@[simp] theorem setRegister_cause (n : HostReg) (v : Word) (s : State) : (setRegister n v s).cause = s.cause := by cases n <;> rfl
@[simp] theorem setRegister_frozen (n : HostReg) (v : Word) (s : State) : (setRegister n v s).frozen = s.frozen := by cases n <;> rfl
@[simp] theorem setRegister_events (n : HostReg) (v : Word) (s : State) : (setRegister n v s).events = s.events := by cases n <;> rfl
@[simp] theorem setRegister_reads (n : HostReg) (v : Word) (s : State) : (setRegister n v s).reads = s.reads := by cases n <;> rfl
@[simp] theorem setRegister_draws (n : HostReg) (v : Word) (s : State) : (setRegister n v s).draws = s.draws := by cases n <;> rfl

end Sys2Proof.Machine
end

