-- ==== Sys2Proof/Laws/Ops.lean ====
section
/-! SUPPORT. One lemma per shared operation of Machine/Ops.lean that says once everything it can do: the index spaces and the
word-index functions, the `forall` steps, the capacity test, and the two in-place shapes. -/

namespace Sys2Proof.Machine

/-! ### Index spaces and word indices (R7, R45) -/

theorem State.a2_lt (s : State) {g k : Nat} (hg : g < s.S) (hk : k < s.K) : s.a2 g k < s.words2 := by
  have h : (g + 1) * s.K ≤ s.S * s.K := Nat.mul_le_mul_right _ hg
  rw [Nat.succ_mul] at h
  simp only [State.a2, State.words2]
  omega

theorem State.a3_lt (s : State) {g k l : Nat} (hg : g < s.S) (hk : k < s.K) (hl : l < s.L) : s.a3 g k l < s.words3 := by
  have h2 := s.a2_lt hg hk
  have h : (s.a2 g k + 1) * s.L ≤ s.words2 * s.L := Nat.mul_le_mul_right _ h2
  rw [Nat.succ_mul] at h
  simp only [State.a3, State.words3, State.a2, State.words2] at *
  omega

theorem State.a2_div (s : State) {g k : Nat} (hk : k < s.K) : s.a2 g k / s.K = g := by
  simp only [State.a2]
  rw [Nat.mul_comm, Nat.mul_add_div (by omega), Nat.div_eq_of_lt hk, Nat.add_zero]

theorem State.a2_mod (s : State) {g k : Nat} (hk : k < s.K) : s.a2 g k % s.K = k := by
  simp only [State.a2]
  rw [Nat.mul_comm, Nat.mul_add_mod, Nat.mod_eq_of_lt hk]

theorem State.a3_div (s : State) {g k l : Nat} (hl : l < s.L) : s.a3 g k l / s.L = s.a2 g k := by
  simp only [State.a3, State.a2]
  rw [Nat.mul_comm, Nat.mul_add_div (by omega), Nat.div_eq_of_lt hl, Nat.add_zero]

theorem State.a3_mod (s : State) {g k l : Nat} (hl : l < s.L) : s.a3 g k l % s.L = l := by
  simp only [State.a3]
  rw [Nat.mul_comm, Nat.mul_add_mod, Nat.mod_eq_of_lt hl]

/-- Every index below `S*K` is that of one pair. -/
theorem State.a2_divMod (s : State) (p : Nat) : s.a2 (p / s.K) (p % s.K) = p := by
  simp only [State.a2, Nat.div_add_mod']

/-- Every index below `S*K*L` is that of one triple. -/
theorem State.a3_divMod (s : State) (p : Nat) : s.a3 (p / s.L / s.K) (p / s.L % s.K) (p % s.L) = p := by
  simp only [State.a3, Nat.div_add_mod']

theorem State.lt_of_lt_words2 (s : State) {p : Nat} (h : p < s.words2) : p / s.K < s.S ∧ p % s.K < s.K := by
  simp only [State.words2] at h
  have hK : 0 < s.K := by
    rcases Nat.eq_zero_or_pos s.K with h0 | h0
    · simp [h0] at h
    · exact h0
  exact ⟨(Nat.div_lt_iff_lt_mul hK).2 h, Nat.mod_lt _ hK⟩

theorem State.lt_of_lt_words3 (s : State) {p : Nat} (h : p < s.words3) :
    p / s.L / s.K < s.S ∧ p / s.L % s.K < s.K ∧ p % s.L < s.L := by
  have hL : 0 < s.L := by
    rcases Nat.eq_zero_or_pos s.L with h0 | h0
    · simp [State.words3, h0] at h
    · exact h0
  have h2 : p / s.L < s.words2 := (Nat.div_lt_iff_lt_mul hL).2 h
  exact ⟨(s.lt_of_lt_words2 h2).1, (s.lt_of_lt_words2 h2).2, Nat.mod_lt _ hL⟩

/-- Idx2 is the set of R7. -/
theorem State.mem_idx2 (s : State) {g k : Nat} : (g, k) ∈ s.idx2 ↔ g < s.S ∧ k < s.K := by
  simp only [State.idx2, List.mem_map, List.mem_range, Prod.mk.injEq]
  constructor
  · rintro ⟨p, hp, rfl, rfl⟩; exact s.lt_of_lt_words2 hp
  · rintro ⟨hg, hk⟩; exact ⟨s.a2 g k, s.a2_lt hg hk, s.a2_div hk, s.a2_mod hk⟩

/-- Idx3 is the set of R7. -/
theorem State.mem_idx3 (s : State) {g k l : Nat} : (g, k, l) ∈ s.idx3 ↔ g < s.S ∧ k < s.K ∧ l < s.L := by
  simp only [State.idx3, List.mem_map, List.mem_range, Prod.mk.injEq]
  constructor
  · rintro ⟨p, hp, rfl, rfl, rfl⟩; exact s.lt_of_lt_words3 hp
  · rintro ⟨hg, hk, hl⟩
    refine ⟨s.a3 g k l, s.a3_lt hg hk hl, ?_, ?_, s.a3_mod hl⟩
    · rw [s.a3_div hl, s.a2_div hk]
    · rw [s.a3_div hl, s.a2_mod hk]

/-! ### The `forall` steps -/

/-- What every word of the destination reads as after a step over Idx2. -/
theorem State.read?_forall2 (s : State) (dst : Space) (f : Nat → Nat → Word) (a : Nat) :
    ((s.forall2 dst f).space dst).read? a =
      if a < s.words2 then some (f (a / s.K) (a % s.K)) else (s.space dst).read? a := by
  rw [s.space_forall2_self, State.idx2, List.map_map]
  exact Memory.read?_storeAll_range _ _ (fun p => s.a2 (p / s.K) (p % s.K)) (fun p => f (p / s.K) (p % s.K))
    (fun p _ => s.a2_divMod p) a

/-- The element `(g, k)` after a step over Idx2. -/
theorem State.read?_forall2_a2 (s : State) (dst : Space) (f : Nat → Nat → Word) {g k : Nat} (hg : g < s.S) (hk : k < s.K) :
    ((s.forall2 dst f).space dst).read? (s.a2 g k) = some (f g k) := by
  rw [s.read?_forall2, if_pos (s.a2_lt hg hk), s.a2_div hk, s.a2_mod hk]

/-- What every word of the destination reads as after a step over Idx3. -/
theorem State.read?_forall3 (s : State) (dst : Space) (f : Nat → Nat → Nat → Word) (a : Nat) :
    ((s.forall3 dst f).space dst).read? a =
      if a < s.words3 then some (f (a / s.L / s.K) (a / s.L % s.K) (a % s.L)) else (s.space dst).read? a := by
  rw [s.space_forall3_self, State.idx3, List.map_map]
  exact Memory.read?_storeAll_range _ _ (fun p => s.a3 (p / s.L / s.K) (p / s.L % s.K) (p % s.L))
    (fun p => f (p / s.L / s.K) (p / s.L % s.K) (p % s.L)) (fun p _ => s.a3_divMod p) a

/-- The element `(g, k, l)` after a step over Idx3. -/
theorem State.read?_forall3_a3 (s : State) (dst : Space) (f : Nat → Nat → Nat → Word) {g k l : Nat} (hg : g < s.S)
    (hk : k < s.K) (hl : l < s.L) : ((s.forall3 dst f).space dst).read? (s.a3 g k l) = some (f g k l) := by
  rw [s.read?_forall3, if_pos (s.a3_lt hg hk hl), s.a3_div hl, s.a3_mod hl, s.a2_div hk, s.a2_mod hk]

theorem State.wf_forall2 (s : State) (dst sp : Space) (f : Nat → Nat → Word) (h : (s.space sp).wf) :
    ((s.forall2 dst f).space sp).wf := by
  by_cases e : sp = dst
  · subst e; rw [s.space_forall2_self]; exact Memory.wf_storeAll h _
  · rwa [s.space_forall2_ne f e]

theorem State.wf_forall3 (s : State) (dst sp : Space) (f : Nat → Nat → Nat → Word) (h : (s.space sp).wf) :
    ((s.forall3 dst f).space sp).wf := by
  by_cases e : sp = dst
  · subst e; rw [s.space_forall3_self]; exact Memory.wf_storeAll h _
  · rwa [s.space_forall3_ne f e]

/-- A listed word after a step over Idx2 was listed before or is one of the step's. -/
theorem State.mem_forall2 (s : State) {dst sp : Space} {f : Nat → Nat → Word} {c : Nat × Word}
    (h : c ∈ (s.forall2 dst f).space sp) : (sp = dst ∧ c.1 < s.words2) ∨ c ∈ s.space sp := by
  by_cases e : sp = dst
  · subst e
    rw [s.space_forall2_self] at h
    rcases Memory.mem_storeAll h with ⟨d, hd, hc⟩ | h
    · obtain ⟨⟨g, k⟩, hp, rfl⟩ := List.mem_map.1 hd
      have := s.mem_idx2.1 hp
      exact .inl ⟨rfl, by rw [hc]; exact s.a2_lt this.1 this.2⟩
    · exact .inr h
  · rw [s.space_forall2_ne f e] at h; exact .inr h

/-- A listed word after a step over Idx3 was listed before or is one of the step's. -/
theorem State.mem_forall3 (s : State) {dst sp : Space} {f : Nat → Nat → Nat → Word} {c : Nat × Word}
    (h : c ∈ (s.forall3 dst f).space sp) : (sp = dst ∧ c.1 < s.words3) ∨ c ∈ s.space sp := by
  by_cases e : sp = dst
  · subst e
    rw [s.space_forall3_self] at h
    rcases Memory.mem_storeAll h with ⟨d, hd, hc⟩ | h
    · obtain ⟨⟨g, k, l⟩, hp, rfl⟩ := List.mem_map.1 hd
      have := s.mem_idx3.1 hp
      exact .inl ⟨rfl, by rw [hc]; exact s.a3_lt this.1 this.2.1 this.2.2⟩
    · exact .inr h
  · rw [s.space_forall3_ne f e] at h; exact .inr h

/-! ### Loading and the capacity test -/

/-- A word that holds a value loads as that value: no free value is drawn. -/
theorem State.load_of_read? {s : State} {sp : Space} {a : Nat} {v : Word} (h : (s.space sp).read? a = some v) :
    s.load sp a = v := by
  simp [State.load, h]

theorem State.read?_of_written {s : State} {sp : Space} {n a : Nat} (h : s.written sp n) (ha : a < n) :
    (s.space sp).read? a = some (s.load sp a) := by
  obtain ⟨v, hv⟩ := Option.isSome_iff_exists.1 (h a ha)
  rw [hv, State.load_of_read? hv]

theorem State.fits_mono {s : State} {sp : Space} {m n : Nat} (h : s.fits sp n = true) (hmn : m ≤ n) :
    s.fits sp m = true := by
  unfold State.fits at *
  split at h
  · rfl
  · exact decide_eq_true (Nat.le_trans hmn (of_decide_eq_true h))

theorem State.holds_of_fits {s : State} {sp : Space} {n a : Nat} (h : s.fits sp n = true) (ha : a < n) :
    s.cfg.holds sp a = true := by
  unfold State.fits at h
  unfold Config.holds
  split at h <;> simp_all
  omega

/-- A step whose words all exist goes on. -/
theorem State.needing_of_fits {s : State} {need : List (Space × Nat)} {t : State}
    (h : ∀ c ∈ need, s.fits c.1 c.2 = true) : s.needing need t = .next t := by
  have : s.shortage need = none := by
    simp only [State.shortage, Option.map_eq_none_iff, List.find?_eq_none]
    intro c hc
    simp [h c hc]
  simp [State.needing, this]

/-- If the step goes on, all its words exist and the next state is the given one. -/
theorem State.needing_eq_next {s : State} {need : List (Space × Nat)} {t u : State} (h : s.needing need t = .next u) :
    t = u ∧ ∀ c ∈ need, s.fits c.1 c.2 = true := by
  unfold State.needing at h
  split at h
  · exact absurd h (by simp)
  · rename_i hs
    simp only [State.shortage, Option.map_eq_none_iff, List.find?_eq_none] at hs
    exact ⟨by simpa using h, fun c hc => by simpa using hs c hc⟩

/-- Otherwise it faults at a listed space that is too small. -/
theorem State.needing_cases (s : State) (need : List (Space × Nat)) (t : State) :
    (s.needing need t = .next t ∧ ∀ c ∈ need, s.fits c.1 c.2 = true) ∨
    ∃ c ∈ need, s.fits c.1 c.2 = false ∧ s.needing need t = .fault (.beyondCapacity c.1) := by
  cases hs : need.find? fun c => !s.fits c.1 c.2 with
  | none =>
    refine .inl ⟨by simp [State.needing, State.shortage, hs], fun c hc => ?_⟩
    have := List.find?_eq_none.1 hs c hc
    simpa using this
  | some c =>
    refine .inr ⟨c, List.mem_of_find?_eq_some hs, ?_, by simp [State.needing, State.shortage, hs]⟩
    have := List.find?_some hs
    simpa using this

/-! ### The two in-place shapes -/

theorem mapWork_of_fits {op : Word → Word} {target : Byte} {s : State} (h : s.fits .work s.words3 = true) :
    mapWork op target s = .next ((s.forall3 .work fun g k l => op (s.load .work (s.a3 g k l))).goto target) :=
  State.needing_of_fits (by simpa using h)

theorem mapH1_of_fits {op : Word → Word} {target : Byte} {s : State} (h : s.fits .h1 s.words2 = true) :
    mapH1 op target s = .next ((s.forall2 .h1 fun g k => op (s.load .h1 (s.a2 g k))).goto target) :=
  State.needing_of_fits (by simpa using h)

theorem mapWork_eq_next {op : Word → Word} {target : Byte} {s t : State} (h : mapWork op target s = .next t) :
    t = (s.forall3 .work fun g k l => op (s.load .work (s.a3 g k l))).goto target ∧ s.fits .work s.words3 = true :=
  ⟨(State.needing_eq_next h).1.symm, (State.needing_eq_next h).2 (.work, s.words3) (by simp)⟩

theorem mapH1_eq_next {op : Word → Word} {target : Byte} {s t : State} (h : mapH1 op target s = .next t) :
    t = (s.forall2 .h1 fun g k => op (s.load .h1 (s.a2 g k))).goto target ∧ s.fits .h1 s.words2 = true :=
  ⟨(State.needing_eq_next h).1.symm, (State.needing_eq_next h).2 (.h1, s.words2) (by simp)⟩

/-- The reach of word `l` of every key stays within the words of the job while `l < L`. -/
theorem State.reach_le_words3 (s : State) {l : Nat} (hl : l < s.L) : s.reach l ≤ s.words3 := by
  unfold State.reach
  split
  · exact Nat.zero_le _
  · rename_i h
    have hS : 0 < s.S := Nat.pos_of_ne_zero fun e => h (by simp [e])
    have hK : 0 < s.K := Nat.pos_of_ne_zero fun e => h (by simp [e])
    exact s.a3_lt (Nat.sub_lt hS Nat.one_pos) (Nat.sub_lt hK Nat.one_pos) hl

end Sys2Proof.Machine
end

