-- ==== Sys2Proof/Laws/Exec.lean ====
section
/-! SUPPORT. Where a uop's words exist its capacity test passes, and the other way round; the next state of every uop then;
and what each uop may answer. -/

namespace Sys2Proof.Machine

/-! ### Words that exist, and the capacity test -/

theorem State.fits_zero (s : State) (sp : Space) : s.fits sp 0 = true := by
  unfold State.fits; split <;> simp

theorem State.fits_succ_iff_holds (s : State) (sp : Space) (a : Nat) : s.fits sp (a + 1) = s.cfg.holds sp a := by
  cases h : s.cfg.capacity sp with
  | none => simp only [State.fits, Config.holds, h]
  | some n => simp only [State.fits, Config.holds, h, Nat.lt_iff_add_one_le]

theorem State.fits_words2_iff (s : State) (sp : Space) :
    s.fits sp s.words2 = true ↔ ∀ g k, g < s.S → k < s.K → s.cfg.holds sp (s.a2 g k) = true := by
  constructor
  · exact fun h g k hg hk => State.holds_of_fits h (s.a2_lt hg hk)
  · intro h
    cases hn : s.words2 with
    | zero => exact s.fits_zero sp
    | succ n =>
      have hlt := s.lt_of_lt_words2 (p := n) (by omega)
      rw [s.fits_succ_iff_holds, ← s.a2_divMod n]
      exact h _ _ hlt.1 hlt.2

theorem State.fits_words3_iff (s : State) (sp : Space) :
    s.fits sp s.words3 = true ↔ ∀ g k l, g < s.S → k < s.K → l < s.L → s.cfg.holds sp (s.a3 g k l) = true := by
  constructor
  · exact fun h g k l hg hk hl => State.holds_of_fits h (s.a3_lt hg hk hl)
  · intro h
    cases hn : s.words3 with
    | zero => exact s.fits_zero sp
    | succ n =>
      have hlt := s.lt_of_lt_words3 (p := n) (by omega)
      rw [s.fits_succ_iff_holds, ← s.a3_divMod n]
      exact h _ _ _ hlt.1 hlt.2.1 hlt.2.2

theorem State.a3_le_last (s : State) {g k : Nat} (l : Nat) (hg : g < s.S) (hk : k < s.K) :
    s.a3 g k l ≤ s.a3 (s.S - 1) (s.K - 1) l := by
  simp only [State.a3]
  have h1 : g * s.K + k ≤ (s.S - 1) * s.K + (s.K - 1) :=
    Nat.add_le_add (Nat.mul_le_mul_right _ (by omega)) (by omega)
  exact Nat.add_le_add_right (Nat.mul_le_mul_right _ h1) l

theorem State.fits_reach_iff (s : State) (l : Nat) :
    s.fits .work (s.reach l) = true ↔ ∀ g k, g < s.S → k < s.K → s.cfg.holds .work (s.a3 g k l) = true := by
  unfold State.reach
  split
  · rename_i h0
    refine ⟨fun _ g k hg hk => ?_, fun _ => s.fits_zero _⟩
    rcases Nat.mul_eq_zero.1 h0 with h | h <;> omega
  · rename_i h0
    have hS : 0 < s.S := Nat.pos_of_ne_zero fun e => h0 (by simp [e])
    have hK : 0 < s.K := Nat.pos_of_ne_zero fun e => h0 (by simp [e])
    constructor
    · exact fun h g k hg hk => State.holds_of_fits h (Nat.lt_succ_of_le (s.a3_le_last l hg hk))
    · intro h
      rw [s.fits_succ_iff_holds]
      exact h _ _ (by omega) (by omega)

theorem State.fits_seedWords_iff (s : State) :
    s.fits .seed s.seedWords = true ↔ ∀ g k, g < s.S → k < s.K → s.cfg.holds .seed (s.a1 g) = true := by
  unfold State.seedWords
  split
  · rename_i h0
    refine ⟨fun _ g k hg hk => ?_, fun _ => s.fits_zero _⟩
    rcases Nat.mul_eq_zero.1 h0 with h | h <;> omega
  · rename_i h0
    have hS : 0 < s.S := Nat.pos_of_ne_zero fun e => h0 (by simp [e])
    have hK : 0 < s.K := Nat.pos_of_ne_zero fun e => h0 (by simp [e])
    constructor
    · exact fun h g k hg _ => State.holds_of_fits h hg
    · intro h
      have h1 := h (s.S - 1) 0 (by omega) hK
      rw [show s.S = s.S - 1 + 1 by omega, s.fits_succ_iff_holds]
      exact h1

theorem State.seedWords_le (s : State) : s.seedWords ≤ s.S := by
  unfold State.seedWords; split <;> omega

/-! ### The violations mask -/

theorem maskOf_eq_zero {b0 b1 b2 b3 : Bool} : maskOf b0 b1 b2 b3 = 0 ↔ b0 = false ∧ b1 = false ∧ b2 = false ∧ b3 = false := by
  revert b0 b1 b2 b3; decide

theorem maskOf_getLsbD (b0 b1 b2 b3 : Bool) : (maskOf b0 b1 b2 b3).getLsbD 0 = b0 ∧ (maskOf b0 b1 b2 b3).getLsbD 1 = b1 ∧
    (maskOf b0 b1 b2 b3).getLsbD 2 = b2 ∧ (maskOf b0 b1 b2 b3).getLsbD 3 = b3 := by
  revert b0 b1 b2 b3; decide

/-- R102: no violation is exactly a legal descriptor. -/
theorem violations_eq_zero_iff (s : State) : violations s = 0 ↔ LegalDescriptor s := by
  unfold violations
  rw [maskOf_eq_zero]
  simp only [rankViolated, seedCountViolated, wordLenViolated, capacityViolated, State.words2, State.words3,
    Bool.or_eq_false_iff, bne_eq_false_iff_eq, beq_eq_false_iff_ne, Bool.not_eq_false', ne_eq]
  constructor
  · rintro ⟨⟨h1, h2⟩, h3, h4, ⟨⟨⟨⟨h5, h6⟩, h7⟩, h8⟩, h9⟩⟩
    exact ⟨h1, h2, h3, h4, h5, h6, h7, h8, h9⟩
  · rintro ⟨h1, h2, h3, h4, h5, h6, h7, h8, h9⟩
    exact ⟨⟨h1, h2⟩, h3, h4, ⟨⟨⟨⟨h5, h6⟩, h7⟩, h8⟩, h9⟩⟩

/-! ### Decoding a code of the table -/

/-- The eighteen codes and what they decode to (R64). -/
theorem decodeUop_ok_iff (b : Byte) (i : Instr) : decodeUop b = .ok i ↔ encode i = .uop b := by
  cases i <;> revert b <;> decide +kernel

end Sys2Proof.Machine
end

