-- ==== Sys2Proof/Laws/Run.lean ====
section
/-! SUPPORT. Several steps: `Host.Core.run` by one step, by several, and how a list of uops is performed. -/

namespace Sys2Proof.Machine

/-- What follows an outcome: go on from a next state, or stay stopped. -/
def andThen (o : Result) (f : State → Result) : Result :=
  match o with
  | .next t => f t
  | .fault r => .fault r
  | .refused r => .refused r

@[simp] theorem andThen_next (t : State) (f : State → Result) : andThen (.next t) f = f t := rfl
@[simp] theorem andThen_fault (r : Fault) (f : State → Result) : andThen (.fault r) f = .fault r := rfl
@[simp] theorem andThen_refused (r : Refusal) (f : State → Result) : andThen (.refused r) f = .refused r := rfl

theorem run_zero (s : State) : runSteps 0 s = .next s := rfl

theorem run_succ (n : Nat) (s : State) : runSteps (n + 1) s = andThen (step s) (runSteps n) := by
  unfold runSteps
  cases step s <;> rfl

/-- `runSteps` is the host's run of this machine. -/
theorem runSteps_eq_run (n : Nat) (s : State) : runSteps n s = Host.Core.run core n s := by
  induction n generalizing s with
  | zero => rfl
  | succ n ih =>
    have h : Host.Core.run core (n + 1) s = andThen (step s) (Host.Core.run core n) := by
      cases h : step s <;> simp only [Host.Core.run, show core.step s = _ from h] <;> rfl
    rw [h, run_succ]
    cases step s with
    | next t => exact ih t
    | fault r => rfl
    | refused r => rfl

theorem run_succ_of_next {n : Nat} {s t : State} (h : step s = .next t) :
    runSteps (n + 1) s = runSteps n t := by
  rw [run_succ, h, andThen_next]

theorem run_one (s : State) : runSteps 1 s = step s := by
  rw [run_succ]; cases step s <;> rfl

/-- A run of `m + n` steps is a run of `m`, then one of `n`. -/
theorem run_add (m n : Nat) (s : State) :
    runSteps (m + n) s = andThen (runSteps m s) (runSteps n) := by
  induction m generalizing s with
  | zero => rw [Nat.zero_add, run_zero, andThen_next]
  | succ m ih =>
    rw [Nat.add_right_comm, run_succ, run_succ]
    cases h : step s with
    | next t => simp [ih]
    | fault r => rfl
    | refused r => rfl

theorem run_add_of_next {m n : Nat} {s t : State} (h : runSteps m s = .next t) :
    runSteps (m + n) s = runSteps n t := by
  rw [run_add, h, andThen_next]

theorem execAll_cons (i : Instr) (is : List Instr) (s : State) : execAll (i :: is) s = andThen (exec i s) (execAll is) := by
  unfold execAll
  cases exec i s <;> rfl

theorem execAll_append (is js : List Instr) (s : State) :
    execAll (is ++ js) s = andThen (execAll is s) (execAll js) := by
  induction is generalizing s with
  | nil => rfl
  | cons i is ih =>
    rw [List.cons_append, execAll_cons, execAll_cons]
    cases h : exec i s with
    | next t => simp [ih]
    | fault r => rfl
    | refused r => rfl

/-- The sequencer's turn of a running job is the meaning of the uop in `UPC`. -/
theorem step_of_busy {s : State} {i : Instr} (he : s.events = []) (hb : s.job = .busy) (hi : encode i = .uop s.upc) :
    step s = exec i s := by
  simp [step, he, sequencerTurn, hb, (decodeUop_ok_iff _ _).2 hi]

/-- A `CMD` write of HASH is the meaning of HASH. -/
theorem step_of_hash {s : State} {rest : List Event} (he : s.events = .host HostAction.hash :: rest) :
    step s = execHash { s with events := rest } := by
  simp only [step, he, deliver, HostAction.hash, hostAction, writeRegister, writeCommand]
  rfl

end Sys2Proof.Machine
end

