-- ==== Sys2Proof/Laws/Job.lean ====
section
/-! SUPPORT. One lemma per uop of a running job with a legal descriptor: the state of a job is its start with other contents
of `WORK` and `H1`, another `UPC`, `IDX` and draw counter (`stage`), and each uop takes a stage to the next one. Then the stretches of a job: up to HINIT, the fold, and from HLEN to the end. -/

namespace Sys2Proof.Machine

/-- A job that started in `s`, at the uop `u` with word index `i`. -/
def stage (s : State) (w h : Memory) (i : Word) (u : Byte) (d : Nat) : State :=
  { s with work := w, h1 := h, idx := i, upc := u, draws := d }

/-- `w` holds `f g k l` as word `l` of key `k` of group `g`, for every element of Idx3. -/
def Holds3 (s : State) (w : Memory) (f : Nat → Nat → Nat → Word) : Prop :=
  ∀ g k l, g < s.S → k < s.K → l < s.L → w.read? (s.a3 g k l) = some (f g k l)

/-- `h` holds `f g k` for key `k` of group `g`, for every element of Idx2. -/
def Holds2 (s : State) (h : Memory) (f : Nat → Nat → Word) : Prop :=
  ∀ g k, g < s.S → k < s.K → h.read? (s.a2 g k) = some (f g k)

theorem Holds3.written {s : State} {w : Memory} {f : Nat → Nat → Nat → Word} (h : Holds3 s w f) {a : Nat}
    (ha : a < s.words3) : (w.read? a).isSome = true := by
  obtain ⟨h1, h2, h3⟩ := s.lt_of_lt_words3 ha
  rw [← s.a3_divMod a, h _ _ _ h1 h2 h3]; rfl

theorem Holds2.written {s : State} {m : Memory} {f : Nat → Nat → Word} (h : Holds2 s m f) {a : Nat}
    (ha : a < s.words2) : (m.read? a).isSome = true := by
  obtain ⟨h1, h2⟩ := s.lt_of_lt_words2 ha
  rw [← s.a2_divMod a, h _ _ h1 h2]; rfl

/-- What a job needs of the state it started in: it runs, nothing is queued, and the descriptor is legal. -/
structure Running (s : State) : Prop where
  busy : s.job = .busy
  quiet : s.events = []
  legal : LegalDescriptor s

section
variable {s : State} (r : Running s) {w h : Memory} {i : Word} {d : Nat}
include r

theorem Running.step_stage {n : Instr} {u : Byte} (hn : encode n = .uop u) :
    step (stage s w h i u d) = exec n (stage s w h i u d) :=
  step_of_busy r.quiet r.busy hn

/-- CHECK goes on to COPY. -/
theorem Running.step_check : step (stage s w h i 0x01 d) = .next (stage s w h i 0x02 d) := by
  rw [r.step_stage (n := .check) (u := 0x01) rfl]
  have hv : violations (stage s w h i 0x01 d) = 0 := (violations_eq_zero_iff s).2 r.legal
  exact if_neg (not_not.2 hv)

/-- COPY, from the words that `KEY` holds. -/
theorem Running.step_copy {f : Nat → Nat → Nat → Word} (hk : Holds3 s s.key f) :
    ∃ w', step (stage s w h i 0x02 d) = .next (stage s w' h i 0x10 (d + 1)) ∧ Holds3 s w' f := by
  rw [r.step_stage (n := .copy) (u := 0x02) rfl]
  refine ⟨_, State.needing_of_fits ?_, fun g k l hg hk' hl => ?_⟩
  · simpa using ⟨r.legal.capKey, r.legal.capWork⟩
  · rw [← State.load_of_read? (s := stage s w h i 0x02 d) (sp := .key) (hk g k l hg hk' hl)]
    exact State.read?_forall3_a3 (stage s w h i 0x02 d) .work
      (fun g k l => (stage s w h i 0x02 d).load .key ((stage s w h i 0x02 d).a3 g k l)) hg hk' hl

theorem Running.step_mapWork {n : Instr} {u t : Byte} {op : Word → Word} {f : Nat → Nat → Nat → Word}
    (hn : encode n = .uop u) (he : exec n (stage s w h i u d) = mapWork op t (stage s w h i u d)) (hw : Holds3 s w f) :
    ∃ w', step (stage s w h i u d) = .next (stage s w' h i t (d + 1)) ∧ Holds3 s w' fun g k l => op (f g k l) := by
  rw [r.step_stage hn, he]
  refine ⟨_, mapWork_of_fits r.legal.capWork, fun g k l hg hk hl => ?_⟩
  show _ = some (op (f g k l))
  rw [← State.load_of_read? (s := stage s w h i u d) (sp := .work) (hw g k l hg hk hl)]
  exact State.read?_forall3_a3 (stage s w h i u d) .work
    (fun g k l => op ((stage s w h i u d).load .work ((stage s w h i u d).a3 g k l))) hg hk hl

theorem Running.step_mapH1 {n : Instr} {u t : Byte} {op : Word → Word} {f : Nat → Nat → Word}
    (hn : encode n = .uop u) (he : exec n (stage s w h i u d) = mapH1 op t (stage s w h i u d)) (hh : Holds2 s h f) :
    ∃ h', step (stage s w h i u d) = .next (stage s w h' i t (d + 1)) ∧ Holds2 s h' fun g k => op (f g k) := by
  rw [r.step_stage hn, he]
  refine ⟨_, mapH1_of_fits r.legal.capH1, fun g k hg hk => ?_⟩
  show _ = some (op (f g k))
  rw [← State.load_of_read? (s := stage s w h i u d) (sp := .h1) (hh g k hg hk)]
  exact State.read?_forall2_a2 (stage s w h i u d) .h1
    (fun g k => op ((stage s w h i u d).load .h1 ((stage s w h i u d).a2 g k))) hg hk

theorem Running.L_pos : 0 < s.L := by
  have := r.legal.wordLen
  exact Nat.pos_of_ne_zero fun e => this (BitVec.eq_of_toNat_eq e)

/-- HINIT on this hardware. -/
theorem Running.step_hinit (h0 : s.cfg.firstWordFold = false) {f : Nat → Nat → Nat → Word} {sd : Nat → Word}
    (hw : Holds3 s w f) (hs : ∀ g, g < s.S → s.seed.read? g = some (sd g)) :
    ∃ h', step (stage s w h i 0x20 d) = .next (stage s w h' 1 (if 1 < s.L then 0x30 else 0x40) (d + 1)) ∧
      Holds2 s h' fun g k => xor32 (f g k 0) (sd g) := by
  rw [r.step_stage (n := .hinit) (u := 0x20) rfl]
  have he : exec .hinit (stage s w h i 0x20 d) = initUnfolded (stage s w h i 0x20 d) := if_neg (by simp [stage, h0])
  rw [he]
  refine ⟨_, State.needing_of_fits ?_, fun g k hg hk => ?_⟩
  · simpa using ⟨State.fits_mono r.legal.capWork (s.reach_le_words3 r.L_pos),
      State.fits_mono r.legal.capSeed s.seedWords_le, r.legal.capH1⟩
  · show _ = some (xor32 (f g k 0) (sd g))
    rw [← State.load_of_read? (s := stage s w h i 0x20 d) (sp := .work) (hw g k 0 hg hk r.L_pos),
      ← State.load_of_read? (s := stage s w h i 0x20 d) (sp := .seed) (hs g hg)]
    exact State.read?_forall2_a2 (stage s w h i 0x20 d) .h1 (fun g k =>
      xor32 ((stage s w h i 0x20 d).load .work ((stage s w h i 0x20 d).a3 g k 0)) ((stage s w h i 0x20 d).load .seed g)) hg hk

/-- HINIT under the other reading (R135). -/
theorem Running.step_hinit_folded (h0 : s.cfg.firstWordFold = true) {sd : Nat → Word}
    (hs : ∀ g, g < s.S → s.seed.read? g = some (sd g)) :
    ∃ h', step (stage s w h i 0x20 d) = .next (stage s w h' 0 0x30 (d + 1)) ∧ Holds2 s h' fun g _ => sd g := by
  rw [r.step_stage (n := .hinit) (u := 0x20) rfl]
  have he : exec .hinit (stage s w h i 0x20 d) = initFolded (stage s w h i 0x20 d) := if_pos (by simp [stage, h0])
  rw [he]
  refine ⟨_, State.needing_of_fits ?_, fun g k hg hk => ?_⟩
  · simpa using ⟨State.fits_mono r.legal.capSeed s.seedWords_le, r.legal.capH1⟩
  · show _ = some (sd g)
    rw [← State.load_of_read? (s := stage s w h i 0x20 d) (sp := .seed) (hs g hg)]
    exact State.read?_forall2_a2 (stage s w h i 0x20 d) .h1 (fun g _ => (stage s w h i 0x20 d).load .seed g) hg hk

/-- HXOR, at a word index of the key. -/
theorem Running.step_hxor {f : Nat → Nat → Nat → Word} {f2 : Nat → Nat → Word} (hw : Holds3 s w f) (hh : Holds2 s h f2)
    (hi : i.toNat < s.L) :
    ∃ h', step (stage s w h i 0x30 d) = .next (stage s w h' i 0x31 (d + 1)) ∧
      Holds2 s h' fun g k => xor32 (f2 g k) (f g k i.toNat) := by
  rw [r.step_stage (n := .hxor) (u := 0x30) rfl]
  refine ⟨_, State.needing_of_fits ?_, fun g k hg hk => ?_⟩
  · simpa using ⟨State.fits_mono r.legal.capWork (s.reach_le_words3 hi), r.legal.capH1⟩
  · show _ = some (xor32 (f2 g k) (f g k i.toNat))
    rw [← State.load_of_read? (s := stage s w h i 0x30 d) (sp := .work) (hw g k _ hg hk hi),
      ← State.load_of_read? (s := stage s w h i 0x30 d) (sp := .h1) (hh g k hg hk)]
    exact State.read?_forall2_a2 (stage s w h i 0x30 d) .h1 (fun g k =>
      xor32 ((stage s w h i 0x30 d).load .h1 ((stage s w h i 0x30 d).a2 g k))
        ((stage s w h i 0x30 d).load .work ((stage s w h i 0x30 d).a3 g k i.toNat))) hg hk

/-- HADD. -/
theorem Running.step_hadd {f : Nat → Nat → Word} (hh : Holds2 s h f) :
    ∃ h', step (stage s w h i 0x33 d) =
        .next (stage s w h' (i + 1) (if i.toNat + 1 < s.L then 0x30 else 0x40) (d + 1)) ∧
      Holds2 s h' fun g k => add32 (f g k) nadd := by
  rw [r.step_stage (n := .hadd) (u := 0x33) rfl]
  refine ⟨_, State.needing_of_fits ?_, fun g k hg hk => ?_⟩
  · intro c hc
    rw [List.mem_singleton.1 hc]
    exact r.legal.capH1
  · show _ = some (add32 (f g k) nadd)
    rw [← State.load_of_read? (s := stage s w h i 0x33 d) (sp := .h1) (hh g k hg hk)]
    exact State.read?_forall2_a2 (stage s w h i 0x33 d) .h1
      (fun g k => add32 ((stage s w h i 0x33 d).load .h1 ((stage s w h i 0x33 d).a2 g k)) nadd) hg hk

/-- HOUT. -/
theorem Running.step_hout {f : Nat → Nat → Word} (hh : Holds2 s h f) :
    ∃ o, step (stage s w h i 0x60 d) = .next { stage s w h i 0x70 (d + 1) with out := o } ∧ Holds2 s o f ∧
      ∀ a, s.S * s.K ≤ a → o.read? a = s.out.read? a := by
  rw [r.step_stage (n := .hout) (u := 0x60) rfl]
  refine ⟨_, State.needing_of_fits ?_, fun g k hg hk => ?_, fun a ha => ?_⟩
  · simpa using ⟨r.legal.capH1, r.legal.capOut⟩
  · rw [← State.load_of_read? (s := stage s w h i 0x60 d) (sp := .h1) (hh g k hg hk)]
    exact State.read?_forall2_a2 (stage s w h i 0x60 d) .out
      (fun g k => (stage s w h i 0x60 d).load .h1 ((stage s w h i 0x60 d).a2 g k)) hg hk
  · have h1 := State.read?_forall2 (stage s w h i 0x60 d) .out
      (fun g k => (stage s w h i 0x60 d).load .h1 ((stage s w h i 0x60 d).a2 g k)) a
    have h2 : ¬ a < (stage s w h i 0x60 d).words2 := Nat.not_lt.2 ha
    rwa [if_neg h2] at h1

/-- END. -/
theorem Running.step_end {o : Memory} :
    step { stage s w h i 0x70 d with out := o } = .next { stage s w h i 0x00 d with out := o, job := .done } :=
  step_of_busy (s := { stage s w h i 0x70 d with out := o }) (i := .endJob) r.quiet r.busy rfl

/-! ### Stretches of a job -/

/-- One pass of the fold (R126). -/
theorem Running.onePass {f : Nat → Nat → Nat → Word} {f2 : Nat → Nat → Word} (hw : Holds3 s w f) (hh : Holds2 s h f2)
    (hi : i.toNat < s.L) :
    ∃ h', runSteps 4 (stage s w h i 0x30 d) =
        .next (stage s w h' (i + 1) (if i.toNat + 1 < s.L then 0x30 else 0x40) (d + 4)) ∧
      Holds2 s h' fun g k => fold (f2 g k) (f g k i.toNat) := by
  obtain ⟨h1, e1, H1⟩ := r.step_hxor (d := d) hw hh hi
  obtain ⟨h2, e2, H2⟩ := r.step_mapH1 (w := w) (i := i) (d := d + 1) (n := .hrot) (u := 0x31) (t := 0x32)
    (op := fun h => rotl32 h 13) rfl rfl H1
  obtain ⟨h3, e3, H3⟩ := r.step_mapH1 (w := w) (i := i) (d := d + 2) (n := .hmul5) (u := 0x32) (t := 0x33)
    (op := fun h => mul32 h m5) rfl rfl H2
  obtain ⟨h4, e4, H4⟩ := r.step_hadd (w := w) (i := i) (d := d + 3) H3
  exact ⟨h4, by rw [run_succ_of_next e1, run_succ_of_next e2, run_succ_of_next e3, run_succ_of_next e4, run_zero], H4⟩

/-- The fold from word index `i` to the end, `n` passes (R161). -/
theorem Running.foldLoop {f : Nat → Nat → Nat → Word} (hw : Holds3 s w f) :
    ∀ (n : Nat) (i : Word) (h : Memory) (d : Nat) (f2 : Nat → Nat → Word),
      Holds2 s h f2 → i.toNat + n = s.L → 0 < n →
      ∃ h', runSteps (4 * n) (stage s w h i 0x30 d) = .next (stage s w h' s.dimL 0x40 (d + 4 * n)) ∧
        Holds2 s h' fun g k => ((List.range n).map fun j => f g k (i.toNat + j)).foldl fold (f2 g k) := by
  intro n
  induction n with
  | zero => intro i h d f2 _ _ h0; omega
  | succ n ih =>
    intro i h d f2 hh hi _
    obtain ⟨h1, e1, H1⟩ := r.onePass (d := d) (i := i) hw hh (by omega)
    have hL : s.dimL.toNat = s.L := rfl
    have hlt := s.dimL.isLt
    have hi1 : (i + 1).toNat = i.toNat + 1 := by rw [BitVec.toNat_add]; simp; omega
    rw [show 4 * (n + 1) = 4 + 4 * n by omega, run_add_of_next e1]
    cases n with
    | zero =>
      rw [if_neg (by omega), show i + 1 = s.dimL from BitVec.eq_of_toNat_eq (by omega)]
      exact ⟨h1, rfl, by simpa using H1⟩
    | succ n =>
      rw [if_pos (by omega)]
      obtain ⟨h', e, H⟩ := ih (i + 1) h1 (d + 4) _ H1 (by omega) (by omega)
      refine ⟨h', by rw [e]; congr 2; omega, ?_⟩
      have e2 : ∀ g k, ((List.range (n + 1 + 1)).map fun j => f g k (i.toNat + j)) =
          f g k i.toNat :: ((List.range (n + 1)).map fun j => f g k ((i + 1).toNat + j)) := by
        intro g k
        rw [List.range_succ_eq_map, List.map_cons, List.map_map, hi1]
        refine congrArg₂ List.cons rfl (List.map_congr_left fun j _ => ?_)
        show f g k (i.toNat + (j + 1)) = f g k (i.toNat + 1 + j)
        congr 1; omega
      simpa only [e2, List.foldl_cons] using H

/-- CHECK, COPY, KMUL1, KROT, KMUL2 (R113). -/
theorem Running.toHinit {f : Nat → Nat → Nat → Word} (hk : Holds3 s s.key f) :
    ∃ w', runSteps 5 (stage s w h i 0x01 d) = .next (stage s w' h i 0x20 (d + 4)) ∧
      Holds3 s w' fun g k l => kmix (f g k l) := by
  obtain ⟨w2, e2, H2⟩ := r.step_copy (h := h) (i := i) (d := d) (w := w) hk
  obtain ⟨w3, e3, H3⟩ := r.step_mapWork (h := h) (i := i) (d := d + 1) (n := .kmul1) (u := 0x10) (t := 0x11)
    (op := fun w => mul32 w c1) rfl rfl H2
  obtain ⟨w4, e4, H4⟩ := r.step_mapWork (h := h) (i := i) (d := d + 2) (n := .krot) (u := 0x11) (t := 0x12)
    (op := fun w => rotl32 w 15) rfl rfl H3
  obtain ⟨w5, e5, H5⟩ := r.step_mapWork (h := h) (i := i) (d := d + 3) (n := .kmul2) (u := 0x12) (t := 0x20)
    (op := fun w => mul32 w c2) rfl rfl H4
  exact ⟨w5, by rw [run_succ_of_next r.step_check, run_succ_of_next e2, run_succ_of_next e3, run_succ_of_next e4,
    run_succ_of_next e5, run_zero], H5⟩

/-- HLEN, the avalanche, HOUT, END (R140, R146, R152, R104). -/
theorem Running.fromHlen {f : Nat → Nat → Word} (hh : Holds2 s h f) :
    ∃ h' o, runSteps 8 (stage s w h i 0x40 d) = .next { stage s w h' i 0x00 (d + 7) with out := o, job := .done } ∧
      (Holds2 s o fun g k => fmix32 (xor32 (f g k) (len32 s.L))) ∧ ∀ a, s.S * s.K ≤ a → o.read? a = s.out.read? a := by
  obtain ⟨h1, e1, H1⟩ := r.step_mapH1 (w := w) (i := i) (d := d) (n := .hlen) (u := 0x40) (t := 0x50)
    (op := fun h => xor32 h (len32 s.L)) rfl rfl hh
  obtain ⟨h2, e2, H2⟩ := r.step_mapH1 (w := w) (i := i) (d := d + 1) (n := .fsx16a) (u := 0x50) (t := 0x51)
    (op := fun h => xor32 h (shr32 h 16)) rfl rfl H1
  obtain ⟨h3, e3, H3⟩ := r.step_mapH1 (w := w) (i := i) (d := d + 2) (n := .fmula) (u := 0x51) (t := 0x52)
    (op := fun h => mul32 h fa) rfl rfl H2
  obtain ⟨h4, e4, H4⟩ := r.step_mapH1 (w := w) (i := i) (d := d + 3) (n := .fsx13) (u := 0x52) (t := 0x53)
    (op := fun h => xor32 h (shr32 h 13)) rfl rfl H3
  obtain ⟨h5, e5, H5⟩ := r.step_mapH1 (w := w) (i := i) (d := d + 4) (n := .fmulb) (u := 0x53) (t := 0x54)
    (op := fun h => mul32 h fb) rfl rfl H4
  obtain ⟨h6, e6, H6⟩ := r.step_mapH1 (w := w) (i := i) (d := d + 5) (n := .fsx16b) (u := 0x54) (t := 0x60)
    (op := fun h => xor32 h (shr32 h 16)) rfl rfl H5
  obtain ⟨o, e7, H7, H8⟩ := r.step_hout (w := w) (i := i) (d := d + 6) H6
  refine ⟨h6, o, ?_, H7, H8⟩
  rw [run_succ_of_next e1, run_succ_of_next e2, run_succ_of_next e3, run_succ_of_next e4, run_succ_of_next e5,
    run_succ_of_next e6, run_succ_of_next e7, run_succ_of_next r.step_end, run_zero]

end

end Sys2Proof.Machine
end

