-- ==== Sys2Proof/Laws/PerInstr.lean ====
section
/-! SUPPORT. One law per instruction, as syntax: decoding its code gives it back, and no other instruction has its code. -/

namespace Sys2Proof.Laws.RoundTrip

/-- The code of the instruction decodes to it, and another instruction has another code. -/
def Statement (i : Instr) : Prop := decode (encode i) = .ok i ∧ ∀ j : Instr, encode j = encode i → j = i

theorem hash : Statement .hash := ⟨rfl, fun j h => by cases j <;> first | rfl | exact absurd h (by decide)⟩

theorem check : Statement .check := ⟨rfl, fun j h => by cases j <;> first | rfl | exact absurd h (by decide)⟩

theorem copy : Statement .copy := ⟨rfl, fun j h => by cases j <;> first | rfl | exact absurd h (by decide)⟩

theorem kmul1 : Statement .kmul1 := ⟨rfl, fun j h => by cases j <;> first | rfl | exact absurd h (by decide)⟩

theorem krot : Statement .krot := ⟨rfl, fun j h => by cases j <;> first | rfl | exact absurd h (by decide)⟩

theorem kmul2 : Statement .kmul2 := ⟨rfl, fun j h => by cases j <;> first | rfl | exact absurd h (by decide)⟩

theorem hinit : Statement .hinit := ⟨rfl, fun j h => by cases j <;> first | rfl | exact absurd h (by decide)⟩

theorem hxor : Statement .hxor := ⟨rfl, fun j h => by cases j <;> first | rfl | exact absurd h (by decide)⟩

theorem hrot : Statement .hrot := ⟨rfl, fun j h => by cases j <;> first | rfl | exact absurd h (by decide)⟩

theorem hmul5 : Statement .hmul5 := ⟨rfl, fun j h => by cases j <;> first | rfl | exact absurd h (by decide)⟩

theorem hadd : Statement .hadd := ⟨rfl, fun j h => by cases j <;> first | rfl | exact absurd h (by decide)⟩

theorem hlen : Statement .hlen := ⟨rfl, fun j h => by cases j <;> first | rfl | exact absurd h (by decide)⟩

theorem fsx16a : Statement .fsx16a := ⟨rfl, fun j h => by cases j <;> first | rfl | exact absurd h (by decide)⟩

theorem fmula : Statement .fmula := ⟨rfl, fun j h => by cases j <;> first | rfl | exact absurd h (by decide)⟩

theorem fsx13 : Statement .fsx13 := ⟨rfl, fun j h => by cases j <;> first | rfl | exact absurd h (by decide)⟩

theorem fmulb : Statement .fmulb := ⟨rfl, fun j h => by cases j <;> first | rfl | exact absurd h (by decide)⟩

theorem fsx16b : Statement .fsx16b := ⟨rfl, fun j h => by cases j <;> first | rfl | exact absurd h (by decide)⟩

theorem hout : Statement .hout := ⟨rfl, fun j h => by cases j <;> first | rfl | exact absurd h (by decide)⟩

theorem endJob : Statement .endJob := ⟨rfl, fun j h => by cases j <;> first | rfl | exact absurd h (by decide)⟩

end Sys2Proof.Laws.RoundTrip
end

