-- ==== Sys2Proof/Laws/Step.lean ====
section
/-! SUPPORT. Inversion: everything that an instruction has done when it answers a next state, and everything that a step of
the machine has done. -/

namespace Sys2Proof.Machine

/-- What is true of `s` and `t` when the instruction takes `s` to the next state `t`. -/
def Effect (s t : State) : Instr → Prop
  | .hash => s.job ≠ .busy ∧ t = beginJob s
  | .check =>
    (violations s ≠ 0 ∧ t = raiseContractError (violations s) s) ∨ (violations s = 0 ∧ t = s.goto 0x02)
  | .copy => t = (s.forall3 .work fun g k l => s.load .key (s.a3 g k l)).goto 0x10 ∧ s.fits .work s.words3 = true
  | .kmul1 => t = (s.forall3 .work fun g k l => mul32 (s.load .work (s.a3 g k l)) c1).goto 0x11 ∧ s.fits .work s.words3 = true
  | .krot => t = (s.forall3 .work fun g k l => rotl32 (s.load .work (s.a3 g k l)) 15).goto 0x12 ∧ s.fits .work s.words3 = true
  | .kmul2 => t = (s.forall3 .work fun g k l => mul32 (s.load .work (s.a3 g k l)) c2).goto 0x20 ∧ s.fits .work s.words3 = true
  | .hinit =>
    s.fits .h1 s.words2 = true ∧
    ((s.cfg.firstWordFold = false ∧
        t = { s.forall2 .h1 fun g k => xor32 (s.load .work (s.a3 g k 0)) (s.load .seed (s.a1 g)) with
              idx := 1, upc := if 1 < s.L then 0x30 else 0x40 }) ∨
      (s.cfg.firstWordFold = true ∧
        t = { s.forall2 .h1 fun g _ => s.load .seed (s.a1 g) with idx := 0, upc := 0x30 }))
  | .hxor =>
    t = (s.forall2 .h1 fun g k => xor32 (s.load .h1 (s.a2 g k)) (s.load .work (s.a3 g k s.idx.toNat))).goto 0x31 ∧
      s.fits .h1 s.words2 = true
  | .hrot => t = (s.forall2 .h1 fun g k => rotl32 (s.load .h1 (s.a2 g k)) 13).goto 0x32 ∧ s.fits .h1 s.words2 = true
  | .hmul5 => t = (s.forall2 .h1 fun g k => mul32 (s.load .h1 (s.a2 g k)) m5).goto 0x33 ∧ s.fits .h1 s.words2 = true
  | .hadd =>
    t = { s.forall2 .h1 fun g k => add32 (s.load .h1 (s.a2 g k)) nadd with
          idx := s.idx + 1, upc := if s.idx.toNat + 1 < s.L then 0x30 else 0x40 } ∧ s.fits .h1 s.words2 = true
  | .hlen => t = (s.forall2 .h1 fun g k => xor32 (s.load .h1 (s.a2 g k)) (len32 s.L)).goto 0x50 ∧ s.fits .h1 s.words2 = true
  | .fsx16a =>
    t = (s.forall2 .h1 fun g k => xor32 (s.load .h1 (s.a2 g k)) (shr32 (s.load .h1 (s.a2 g k)) 16)).goto 0x51 ∧
      s.fits .h1 s.words2 = true
  | .fmula => t = (s.forall2 .h1 fun g k => mul32 (s.load .h1 (s.a2 g k)) fa).goto 0x52 ∧ s.fits .h1 s.words2 = true
  | .fsx13 =>
    t = (s.forall2 .h1 fun g k => xor32 (s.load .h1 (s.a2 g k)) (shr32 (s.load .h1 (s.a2 g k)) 13)).goto 0x53 ∧
      s.fits .h1 s.words2 = true
  | .fmulb => t = (s.forall2 .h1 fun g k => mul32 (s.load .h1 (s.a2 g k)) fb).goto 0x54 ∧ s.fits .h1 s.words2 = true
  | .fsx16b =>
    t = (s.forall2 .h1 fun g k => xor32 (s.load .h1 (s.a2 g k)) (shr32 (s.load .h1 (s.a2 g k)) 16)).goto 0x60 ∧
      s.fits .h1 s.words2 = true
  | .hout => t = (s.forall2 .out fun g k => s.load .h1 (s.a2 g k)).goto 0x70 ∧ s.fits .out s.words2 = true
  | .endJob => t = { s with job := .done, upc := 0x00 }

/-- An instruction that answers a next state has had its effect. -/
theorem effect_of_exec {s t : State} {i : Instr} (h : exec i s = .next t) : Effect s t i := by
  cases i
  case hash =>
    simp only [exec, execHash] at h
    split at h
    · exact absurd h (by simp)
    · exact ⟨‹_›, by simpa using h.symm⟩
  case check =>
    simp only [exec, execCheck] at h
    split at h
    · exact .inl ⟨‹_›, by simpa using h.symm⟩
    · rename_i hv
      exact .inr ⟨not_not.1 hv, by simpa using h.symm⟩
  case copy => exact ⟨(State.needing_eq_next h).1.symm, (State.needing_eq_next h).2 (.work, s.words3) (by simp)⟩
  case hinit =>
    simp only [exec, execHinit] at h
    split at h
    · exact ⟨(State.needing_eq_next h).2 (.h1, s.words2) (by simp), .inr ⟨‹_›, (State.needing_eq_next h).1.symm⟩⟩
    · exact ⟨(State.needing_eq_next h).2 (.h1, s.words2) (by simp), .inl ⟨Bool.eq_false_of_not_eq_true ‹_›, (State.needing_eq_next h).1.symm⟩⟩
  case hxor => exact ⟨(State.needing_eq_next h).1.symm, (State.needing_eq_next h).2 (.h1, s.words2) (by simp)⟩
  case hadd => exact ⟨(State.needing_eq_next h).1.symm, (State.needing_eq_next h).2 (.h1, s.words2) (by simp)⟩
  case hout => exact ⟨(State.needing_eq_next h).1.symm, (State.needing_eq_next h).2 (.out, s.words2) (by simp)⟩
  case endJob =>
    show t = _
    simpa [exec, execEnd] using h.symm
  case kmul1 => rw [exec, execKmul1] at h; exact (mapWork_eq_next h :)
  case krot => rw [exec, execKrot] at h; exact (mapWork_eq_next h :)
  case kmul2 => rw [exec, execKmul2] at h; exact (mapWork_eq_next h :)
  case hrot => rw [exec, execHrot] at h; exact (mapH1_eq_next h :)
  case hmul5 => rw [exec, execHmul5] at h; exact (mapH1_eq_next h :)
  case hlen => rw [exec, execHlen] at h; exact (mapH1_eq_next h :)
  case fsx16a => rw [exec, execFsx16a] at h; exact (mapH1_eq_next h :)
  case fmula => rw [exec, execFmula] at h; exact (mapH1_eq_next h :)
  case fsx13 => rw [exec, execFsx13] at h; exact (mapH1_eq_next h :)
  case fmulb => rw [exec, execFmulb] at h; exact (mapH1_eq_next h :)
  case fsx16b => rw [exec, execFsx16b] at h; exact (mapH1_eq_next h :)

/-- What a uop can change at all (20_memory.md R54): `WORK`, `H1`, `OUT`, `IDX`, `UPC`, `STATE`, `CAUSE` and the counter of the
free values. -/
theorem frame_of_exec {s t : State} {i : Instr} (hi : i.isUop = true) (h : exec i s = .next t) :
    t = { s with work := t.work, h1 := t.h1, out := t.out, idx := t.idx, upc := t.upc, job := t.job, cause := t.cause,
                 draws := t.draws } := by
  have e := effect_of_exec h
  cases i
  case hash => exact absurd hi (by decide)
  case check => rcases e with ⟨-, rfl⟩ | ⟨-, rfl⟩ <;> rfl
  case hinit => rcases e with ⟨-, ⟨-, rfl⟩ | ⟨-, rfl⟩⟩ <;> rfl
  case endJob => rw [show t = _ from e]
  all_goals rw [e.1]; rfl

/-- The sequencer's turn: either no job runs and nothing happens, or the uop in `UPC` has been performed. -/
theorem sequencerTurn_eq_next {s t : State} (h : sequencerTurn s = .next t) :
    (s.job ≠ .busy ∧ t = s) ∨ (s.job = .busy ∧ ∃ i, encode i = .uop s.upc ∧ exec i s = .next t) := by
  unfold sequencerTurn at h
  split at h
  · rename_i hb
    split at h
    · rename_i i hi
      exact .inr ⟨hb, i, (decodeUop_ok_iff _ _).1 hi, h⟩
    · exact absurd h (by simp)
    · exact absurd h (by simp)
  · exact .inl ⟨‹_›, by simpa using h.symm⟩

theorem isUop_of_encode {i : Instr} {b : Byte} (h : encode i = .uop b) : i.isUop = true := by
  cases i <;> first | rfl | exact absurd h (by simp [encode])

/-- When the host must leave a word alone. -/
theorem State.isFrozen_iff (s : State) (sp : Space) (a : Nat) :
    s.isFrozen sp a = true ↔ s.job = .busy ∨ a < s.frozenWords sp := by
  simp only [State.isFrozen, Bool.or_eq_true, decide_eq_true_eq]

/-- A host write of a space that completes. -/
theorem writeSpace_eq_next {s t : State} {sp : Space} {a : Nat} {v : Word} (h : writeSpace sp a v s = .next t) :
    s.job ≠ .busy ∧ s.frozenWords sp ≤ a ∧ s.cfg.holds sp a = true ∧ t = s.setSpace sp ((s.space sp).write a v) := by
  unfold writeSpace at h
  split at h
  · exact absurd h (by simp)
  · rename_i hu
    split at h
    · rw [s.isFrozen_iff, not_or, Nat.not_lt] at hu
      exact ⟨hu.1, hu.2, ‹_›, by simpa using h.symm⟩
    · exact absurd h (by simp)

/-- A host write of a register that completes: HASH, or while no job runs a change of the descriptor or nothing. -/
theorem writeRegister_eq_next {s t : State} {n : HostReg} {v : Word} (h : writeRegister n v s = .next t) :
    (n = .cmd ∧ v = 0x00000001 ∧ s.job ≠ .busy ∧ t = beginJob s) ∨ (n ≠ .cmd ∧ s.job ≠ .busy ∧ t = setRegister n v s) := by
  cases n
  case cmd =>
    simp only [writeRegister, writeCommand, decodeCommand] at h
    split at h
    · rename_i i hi
      split at hi
      · rename_i hv
        cases hi
        have := effect_of_exec h
        refine .inl ⟨rfl, ?_, this⟩
        have e : v = commandZero v ++ commandOpc v := by
          apply BitVec.eq_of_toNat_eq
          have := v.isLt
          simp only [commandZero, commandOpc, BitVec.toNat_append, BitVec.extractLsb'_toNat, Nat.shiftLeft_eq,
            Nat.shiftRight_eq_div_pow, Nat.or_comm]
          rw [Nat.or_comm, ← Nat.shiftLeft_eq, ← Nat.shiftLeft_add_eq_or_of_lt (by omega), Nat.shiftLeft_eq]
          omega
        rw [e, hv.1, hv.2]; rfl
      · exact absurd hi (by simp)
    · exact absurd h (by simp)
  all_goals
    simp only [writeRegister] at h
    split at h
    · exact absurd h (by simp)
    · exact .inr ⟨by decide, ‹_›, by simpa using h.symm⟩

/-- What a `STATUS` read changes. -/
theorem readStatus_frame (s : State) :
    ∃ w u, readStatus s = { s with reads := w :: s.reads, frozen := u } ∧
      (u = s.frozen ∨ s.job ≠ .busy ∧ u = ⟨0, 0, 0⟩) := by
  refine ⟨_, _, rfl, ?_⟩
  by_cases hb : s.job = .busy
  · exact .inl (if_pos hb)
  · exact .inr ⟨hb, if_neg hb⟩

/-- What a register read that completes changes, and when it does not complete. -/
theorem readRegister_eq_next {s t : State} {n : HostReg} (h : readRegister n s = .next t) :
    (s.job ≠ .busy ∨ n ∈ [HostReg.status, .idx]) ∧
    ∃ w u, t = { s with reads := w :: s.reads, frozen := u } ∧ (u = s.frozen ∨ s.job ≠ .busy ∧ u = ⟨0, 0, 0⟩) := by
  cases n
  case status => cases h; exact ⟨.inr (by decide), readStatus_frame s⟩
  case idx => cases h; exact ⟨.inr (by decide), _, _, rfl, .inl rfl⟩
  all_goals
    simp only [readRegister] at h
    split at h
    · exact absurd h (by simp)
    · cases h; exact ⟨.inl ‹_›, _, _, rfl, .inl rfl⟩

/-- A host read of a word of `KEY` or `SEED` that completes. -/
theorem readInput_eq_next {s t : State} {sp : Space} {a : Nat} (h : readInput sp a s = .next t) :
    s.job ≠ .busy ∧ s.cfg.holds sp a = true ∧ t = deliverFree (s.load sp a) s := by
  unfold readInput at h
  split at h
  · exact absurd h (by simp)
  · split at h
    · cases h; exact ⟨‹_›, ‹_›, rfl⟩
    · exact absurd h (by simp)

/-- A host read of a word of `OUT` that completes. -/
theorem readOutput_eq_next {s t : State} {a : Nat} (h : readOutput a s = .next t) :
    (s.job = .busy → a < s.words2) ∧ s.cfg.holds .out a = true ∧ ∃ w, t = deliverFree w s ∧
      (s.isFrozen .out a = false → w = s.load .out a) := by
  unfold readOutput at h
  split at h
  · exact absurd h (by simp)
  · rename_i hb
    split at h
    · cases h
      exact ⟨fun h => Nat.lt_of_not_le fun ha => hb ⟨h, ha⟩, ‹_›, _, rfl, fun hf => by rw [hf]; rfl⟩
    · exact absurd h (by simp)

/-- The invariant says nothing of the event queue. -/
theorem Inv.withEvents {s : State} (h : Inv s) (r : List Event) : Inv { s with events := r } := by
  have C := h.control
  exact ⟨h.config,
    ⟨fun sp => by cases sp <;> first
        | exact h.memory.canonical .key | exact h.memory.canonical .seed | exact h.memory.canonical .work
        | exact h.memory.canonical .h1 | exact h.memory.canonical .out,
      fun sp => by cases sp <;> first
        | exact h.memory.exist .key | exact h.memory.exist .seed | exact h.memory.exist .work
        | exact h.memory.exist .h1 | exact h.memory.exist .out⟩,
    ⟨C.1, C.2, C.3, C.4, C.5, C.6, C.7, C.8, C.9, C.10, C.11, C.12, C.13, C.14⟩⟩

/-- What a step can have done. -/
inductive StepEffect (s t : State) : Prop where
  /-- The sequencer performed a uop. -/
  | uop (i : Instr) (r : List Event) (busy : s.job = .busy) (code : encode i = .uop s.upc)
      (run : exec i { s with events := r } = .next t)
  /-- Nothing but the model's own fields and `frozen`, which is kept, or cleared when no job runs. -/
  | own (u : Frozen) (ev : List Event) (rd : List Word) (d : Nat)
      (eq : t = { s with frozen := u, events := ev, reads := rd, draws := d })
      (keep : u = s.frozen ∨ s.job ≠ .busy ∧ u = ⟨0, 0, 0⟩)
  /-- Reset. -/
  | reset (r : List Event) (ev : s.events = .reset :: r) (eq : t = resetBlock { s with events := r })
  /-- HASH. -/
  | hash (r : List Event) (ev : s.events = .host (.wrr .cmd 0x00000001) :: r) (idle : s.job ≠ .busy)
      (eq : t = beginJob { s with events := r })
  /-- A descriptor register was written. -/
  | descriptor (r : List Event) (n : HostReg) (v : Word) (idle : s.job ≠ .busy) (eq : t = setRegister n v { s with events := r })
  /-- A word of a space that is not frozen was written. -/
  | store (r : List Event) (sp : Space) (a : Nat) (v : Word) (idle : s.job ≠ .busy) (free : s.frozenWords sp ≤ a)
      (ex : s.cfg.holds sp a = true)
      (eq : t = { s with events := r }.setSpace sp ((s.space sp).write a v))

theorem stepEffect_of_sequencerTurn {s t : State} {r : List Event} (h : sequencerTurn { s with events := r } = .next t) :
    StepEffect s t := by
  rcases sequencerTurn_eq_next h with ⟨-, rfl⟩ | ⟨hb, i, hi, he⟩
  · exact .own s.frozen r s.reads s.draws rfl (.inl rfl)
  · exact .uop i r hb hi he

/-- Everything that a step of the machine can do. -/
theorem stepEffect {s t : State} (h : step s = .next t) : StepEffect s t := by
  have hs : ∀ (a : Nat) (v : Word) (sp : Space) (r : List Event), writeSpace sp a v { s with events := r } = .next t →
      StepEffect s t := fun a v sp r h => by
    obtain ⟨hb, hf, hx, rfl⟩ := writeSpace_eq_next h
    exact .store r sp a v hb (by cases sp <;> exact hf) hx (by cases sp <;> rfl)
  have hr : ∀ (sp : Space) (a : Nat) (r : List Event), readInput sp a { s with events := r } = .next t → StepEffect s t :=
    fun sp a r h => by
      obtain ⟨-, -, rfl⟩ := readInput_eq_next h
      exact .own s.frozen r _ _ rfl (.inl rfl)
  rw [step] at h
  split at h
  · rename_i he
    exact stepEffect_of_sequencerTurn (r := []) (by simpa [← he] using h)
  · rename_i e r he
    cases e with
    | slot => exact stepEffect_of_sequencerTurn h
    | reset => exact .reset r he (by simpa [deliver] using h.symm)
    | host a =>
      cases a with
      | wrr n v =>
        rcases writeRegister_eq_next (s := { s with events := r }) h with ⟨rfl, rfl, hb, rfl⟩ | ⟨-, hb, rfl⟩
        · exact .hash r he hb rfl
        · exact .descriptor r n v hb rfl
      | rdr n =>
        obtain ⟨-, w, u, rfl, hu⟩ := readRegister_eq_next (s := { s with events := r }) h
        exact .own u r _ s.draws rfl hu
      | wrk a v => exact hs a v .key r h
      | wrs a v => exact hs a v .seed r h
      | wro a v => exact hs a v .out r h
      | rdk a => exact hr .key a r h
      | rds a => exact hr .seed a r h
      | rdo a =>
        obtain ⟨-, -, w, rfl, -⟩ := readOutput_eq_next (s := { s with events := r }) h
        exact .own s.frozen r _ _ rfl (.inl rfl)
      | wait =>
        obtain ⟨w, u, e, hu⟩ := readStatus_frame { s with events := r }
        simp only [deliver, hostAction, waitForEnd, e] at h
        split at h <;> cases h
        · exact .own u _ _ s.draws rfl hu
        · exact .own u _ _ s.draws rfl hu

end Sys2Proof.Machine
end

