-- ==== Sys2Proof/Tests/Slice0.lean ====
section
/-! SUPPORT. The model's own tests. Expected values are those of spec/95_test_vectors.md, spec/30_encoding.md or of the rule
named; none comes from the model. Then one witness for the hypotheses of every obligation. -/

namespace Sys2Proof.Tests

open Sys2Proof.Machine Sys2Proof.Claims

/-! ### Helpers -/

/-- The next state, if there is one. -/
def after : Result → Option State
  | .next t => some t
  | _ => none

/-- The fault, if it is one. -/
def faultOf : Result → Option Fault
  | .fault r => some r
  | _ => none

/-- The refusal, if it is one. -/
def refusalOf : Result → Option Refusal
  | .refused r => some r
  | _ => none

theorem next_of_isSome {r : Result} (h : (after r).isSome = true) : ∃ t, r = .next t := by
  cases r with
  | next t => exact ⟨t, rfl⟩
  | fault r => cases h
  | refused r => cases h

/-- Words 0, 1, 2, ... of a space. -/
def cells (ws : List Word) : Memory := (List.range ws.length).zip ws

/-- One key and one seed, described legally, no job started. -/
def described (key : List Word) (seed : Word) : State :=
  { State.reset with dimS := 1, dimK := 1, dimL := BitVec.ofNat 32 key.length, seedN := 1, keyNdim := 3, seedNdim := 1,
                     key := cells key, seed := [(0, seed)] }

/-- A job over one key, at the uop `u`. -/
def running (u : Byte) (i : Word) (work : List Word) (h : Word) : State :=
  { described work 7 with idx := i, upc := u, job := .busy, frozen := ⟨work.length, 1, 1⟩, work := cells work,
                          h1 := [(0, h)] }

/-- The same with every capacity exactly what the job needs. -/
def snug (s : State) : State :=
  { s with cfg := ⟨false, 1, some s.words3, some s.S, some s.words3, some s.words2, some s.words2⟩ }

/-- The same with no word existing anywhere. -/
def empty (s : State) : State := { s with cfg := ⟨false, 1, some 0, some 0, some 0, some 0, some 0⟩ }

/-- The configuration of R135. -/
def folded (s : State) : State := { s with cfg := { s.cfg with firstWordFold := true } }

/-- A descriptor with HASH queued. -/
def asked (dS dK dL n : Word) (k sd : BitVec 4) (c : Config) : State :=
  { State.reset with cfg := c, dimS := dS, dimK := dK, dimL := dL, seedN := n, keyNdim := k, seedNdim := sd,
                     events := [.host HostAction.hash] }

def workOf (r : Result) : Option Memory := (after r).map (·.work)
def h1Of (r : Result) : Option Memory := (after r).map (·.h1)
def statusOf (r : Result) : Option Word := (after r).map statusWord

/-! ### Well-formedness: each check refuses an ill-formed term -/

theorem test_wf_lanes : ¬ Config.WellFormed { Config.standard with lanes := 0 } := by decide
theorem test_wf_standard : Config.WellFormed Config.standard := by decide
theorem test_wf_word_index : Config.holds { Config.standard with keyWords := some 8 } .key 8 = false := by decide
theorem test_wf_word_index_last : Config.holds { Config.standard with keyWords := some 8 } .key 7 = true := by decide
theorem test_wf_program : ¬ MicroProgram.WellFormed [.check, .hash] := by decide
theorem test_wf_program_job : MicroProgram.WellFormed (jobSeq 3) := by decide

/-! ### Decoding: every code of R63 and R64, bit by bit, and reserved ones -/

theorem test_decode_hash : decode (.command 0b00000000000000000000000000000001#32) = .ok .hash := by decide
theorem test_decode_check : decode (.uop 0b00000001#8) = .ok .check := by decide
theorem test_decode_copy : decode (.uop 0b00000010#8) = .ok .copy := by decide
theorem test_decode_kmul1 : decode (.uop 0b00010000#8) = .ok .kmul1 := by decide
theorem test_decode_krot : decode (.uop 0b00010001#8) = .ok .krot := by decide
theorem test_decode_kmul2 : decode (.uop 0b00010010#8) = .ok .kmul2 := by decide
theorem test_decode_hinit : decode (.uop 0b00100000#8) = .ok .hinit := by decide
theorem test_decode_hxor : decode (.uop 0b00110000#8) = .ok .hxor := by decide
theorem test_decode_hrot : decode (.uop 0b00110001#8) = .ok .hrot := by decide
theorem test_decode_hmul5 : decode (.uop 0b00110010#8) = .ok .hmul5 := by decide
theorem test_decode_hadd : decode (.uop 0b00110011#8) = .ok .hadd := by decide
theorem test_decode_hlen : decode (.uop 0b01000000#8) = .ok .hlen := by decide
theorem test_decode_fsx16a : decode (.uop 0b01010000#8) = .ok .fsx16a := by decide
theorem test_decode_fmula : decode (.uop 0b01010001#8) = .ok .fmula := by decide
theorem test_decode_fsx13 : decode (.uop 0b01010010#8) = .ok .fsx13 := by decide
theorem test_decode_fmulb : decode (.uop 0b01010011#8) = .ok .fmulb := by decide
theorem test_decode_fsx16b : decode (.uop 0b01010100#8) = .ok .fsx16b := by decide
theorem test_decode_hout : decode (.uop 0b01100000#8) = .ok .hout := by decide
theorem test_decode_end : decode (.uop 0b01110000#8) = .ok .endJob := by decide
theorem test_decode_reserved_command : decode (.command 0b00000000000000000000000100000001#32) =
    .error (.reservedCommand 0x00000101) := by decide
theorem test_decode_none : decode (.uop 0b00000000#8) = .error .notAUop := by decide
theorem test_decode_reserved_uop : decode (.uop 0b01010101#8) = .error (.reservedUop 0x55) := by decide
/-- R72. -/
theorem test_register_numbers : (List.range 8).map (fun n => HostReg.ofNumber (BitVec.ofNat 3 n)) =
    [.cmd, .status, .dimS, .dimK, .dimL, .seedN, .ndim, .idx] := by decide
theorem test_register_numbers_back : ∀ n : BitVec 3, (HostReg.ofNumber n).number = n := by decide

/-! ### Primitives and scalar functions: 95_test_vectors.md sections 2, 3, 4, 5, 8 -/

theorem test_mul32 : mul32 0xFFFFFFFF 0xCC9E2D51 = 0x3361D2AF := by decide
theorem test_add32 : add32 0x19AB949C 0xE6546B64 = 0 := by decide
theorem test_shr32_logical : shr32 0x80000000 16 = 0x00008000 := by decide
theorem test_rotl32 : rotl32 0x12345678 13 = 0x8ACF0246 := by decide
theorem test_kmix : kmix 0xDEADBEEF = 0x7D23945F := by decide
theorem test_fold : fold 0x12345678 0x9ABCDEF0 = 0x3BA9C0B9 := by decide
theorem test_fmix32 : fmix32 0x12345678 = 0xE37CD1BC := by decide
theorem test_len32_wraps : len32 0x40000001 = 4 := by decide
theorem test_hash1_P1 : hash1 0 [] 0 = 0x249CB285 := by decide
theorem test_hash1_P2 : hash1 0xFFFFFFFF [] 0xFFFFFFFF = 0xAB2040A4 := by decide
theorem test_hash1_P3 : hash1 0x6C6C6568 [0x6F77206F] 0 = 0xED125871 := by decide
theorem test_hash1_P4 : hash1 1 [2, 3] 7 = 0x3FE893B1 := by decide
theorem test_hash1_folded_P1b : hash1Folded [0] 0 = 0x2362F9DE := by decide
/-- R47. -/
theorem test_pack : packLittleEndian [0x68, 0x65, 0x6C, 0x6C, 0x6F, 0x20, 0x77, 0x6F] = some [0x6C6C6568, 0x6F77206F] := by
  decide

/-! ### One step of each instruction -/

/-- R100. -/
theorem test_hash : statusOf (step { described [0] 0 with events := [.host HostAction.hash] }) = some 0x00000101 := by decide
theorem test_hash_busy : refusalOf (exec .hash (running 0x30 1 [1, 2] 0)) = some .commandWhileBusy := by decide
/-- Section 6, the table of CHECK. -/
theorem test_check_pass : statusOf (runSteps 2 (asked 2 3 2 2 3 1 Config.standard)) = some 0x00000201 := by decide
theorem test_check_traps :
    [asked 2 3 2 3 3 1 Config.standard, asked 1 1 0 1 3 1 Config.standard, asked 1 1 1 1 2 1 Config.standard,
     asked 1 1 1 1 3 2 Config.standard, asked 0 0 0 0 0 0 Config.standard,
     asked 2 3 2 2 3 1 { Config.standard with keyWords := some 8 },
     asked 5 1 0 4 2 2 { Config.standard with keyWords := some 8, seedWords := some 2 }].map
      (fun s => statusOf (runSteps 2 s)) =
    [some 0x23, some 0x43, some 0x13, some 0x13, some 0x53, some 0x83, some 0xF3] := by decide
/-- R103. -/
theorem test_copy : workOf (exec .copy { described [0x6C6C6568, 0x6F77206F] 0 with upc := 0x02, job := .busy }) =
    some [(0, 0x6C6C6568), (1, 0x6F77206F)] := by decide
/-- Section 3, row 80000000 and row DEADBEEF. -/
theorem test_kmul1 : workOf (exec .kmul1 (running 0x10 0 [0x80000000, 0xDEADBEEF] 0)) =
    some [(0, 0x80000000), (1, 0x4B0B6C9F)] := by decide
theorem test_krot : workOf (exec .krot (running 0x11 0 [0x80000000, 0x4B0B6C9F] 0)) =
    some [(0, 0x00004000), (1, 0xB64FA585)] := by decide
theorem test_kmul2 : workOf (exec .kmul2 (running 0x12 0 [0x00004000, 0xB64FA585] 0)) =
    some [(0, 0xCD64C000), (1, 0x7D23945F)] := by decide
/-- Section 4: `kmix(1)` with seed 7, for a key of one word and of two. -/
theorem test_hinit : (after (exec .hinit (running 0x20 0 [0xC3539A5D] 0))).map (fun t => (t.h1, t.idx, t.upc)) =
    some ([(0, 0xC3539A5A)], 1, 0x40) := by decide
theorem test_hinit_two_words : (after (exec .hinit (running 0x20 0 [0xC3539A5D, 0] 0))).map (fun t => (t.h1, t.idx, t.upc)) =
    some ([(0, 0xC3539A5A)], 1, 0x30) := by decide
/-- Section 4, row C3539A5A. -/
theorem test_hxor : h1Of (exec .hxor (running 0x30 1 [0xC3539A5D, 0xEBDDB4BA] 0xC3539A5A)) = some [(0, 0x288E2EE0)] := by
  decide
theorem test_hrot : h1Of (exec .hrot (running 0x31 1 [0, 0] 0x288E2EE0)) = some [(0, 0xC5DC0511)] := by decide
theorem test_hmul5 : h1Of (exec .hmul5 (running 0x32 1 [0, 0] 0xC5DC0511)) = some [(0, 0xDD4C1955)] := by decide
theorem test_hadd : (after (exec .hadd (running 0x33 1 [0, 0, 0] 0xDD4C1955))).map (fun t => (t.h1, t.idx, t.upc)) =
    some ([(0, 0xC3A084B9)], 2, 0x30) := by decide
/-- Section 4, the last row of HADD's control outcome. -/
theorem test_hadd_last : (after (exec .hadd { running 0x33 0xFFFFFFFE [] 0x19AB949C with dimL := 0xFFFFFFFF })).map
    (fun t => (t.h1, t.idx, t.upc)) = some ([(0, 0)], 0xFFFFFFFF, 0x40) := by decide
/-- Section 5. -/
theorem test_hlen : h1Of (exec .hlen (running 0x40 3 [0, 0, 0] 0x75A1B23C)) = some [(0, 0x75A1B230)] := by decide
theorem test_hlen_wraps : h1Of (exec .hlen { running 0x40 0 [] 0x5 with dimL := 0x40000000 }) = some [(0, 0x5)] := by decide
theorem test_fsx16a : h1Of (exec .fsx16a (running 0x50 1 [0] 0x80000000)) = some [(0, 0x80008000)] := by decide
theorem test_fmula : h1Of (exec .fmula (running 0x51 1 [0] 0x80008000)) = some [(0, 0x65358000)] := by decide
theorem test_fsx13 : h1Of (exec .fsx13 (running 0x52 1 [0] 0x65358000)) = some [(0, 0x6536A9AC)] := by decide
theorem test_fmulb : h1Of (exec .fmulb (running 0x53 1 [0] 0x6536A9AC)) = some [(0, 0x6D3C089C)] := by decide
theorem test_fsx16b : h1Of (exec .fsx16b (running 0x54 1 [0] 0x6D3C089C)) = some [(0, 0x6D3C65A0)] := by decide
/-- Section 5: `S` = 2, `K` = 3, `H1[1,2]` goes to word 5. -/
theorem test_hout : ((after (exec .hout { running 0x60 2 [] 0 with
    dimS := 2, dimK := 3, h1 := cells [0, 0, 0, 0, 0, 0x01C4D37B], out := [(6, 9)] })).map fun t => (t.out.read? 5, t.out.read? 6)) =
    some (some 0x01C4D37B, some 9) := by decide
/-- R104. -/
theorem test_end : (after (exec .endJob (running 0x70 1 [0] 0))).map (fun t => (statusWord t, t.idx)) =
    some (0x00000002, 1) := by decide

/-! ### Addresses, STATUS, and the host's fetch hooks -/

/-- Section 6, the table of address functions. -/
theorem test_addresses : let s := asked 2 3 2 2 3 1 Config.standard
    [s.a3 0 0 0, s.a3 0 2 1, s.a3 1 0 0, s.a3 1 2 1, s.a2 0 2, s.a2 1 0, s.a2 1 2, s.a1 1] = [0, 5, 6, 11, 2, 3, 5, 1] := by
  decide
/-- Section 6, the list of STATUS words. -/
theorem test_status_words : [statusWord (running 0x11 0 [0] 0), statusWord (running 0x33 1 [0, 0] 0),
    statusWord (running 0x70 1 [0] 0)] = [0x00001101, 0x00003301, 0x00007001] := by decide
theorem test_fetch_hash : statusOf (step (State.reset.withFetchWord 32 1)) = some 0x00000101 := by decide
theorem test_fetch_kmul1 : ((after (step (State.reset.withFetchWord 8 0x10))).map (·.upc)) = some 0x11 := by decide
theorem test_word_missing_faults : faultOf (exec .kmul1 (empty (running 0x10 0 [1] 0))) = some (.beyondCapacity .work) := by
  decide

/-! ### Witnesses: for every obligation that has hypotheses, states that meet them, at the edges of their ranges -/

/-- Two keys' worth of descriptor, job requested, every input written, capacities exact. -/
def requested : State := snug { described [1, 2, 3] 7 with events := [.host HostAction.hash] }

theorem requested_legal : LegalDescriptor requested := by constructor <;> decide

theorem requested_ok : JobRequested requested := ⟨by decide, rfl, requested_legal, by decide, by decide⟩

theorem witness_reservedCodes :
    ((0x00000101 : Word) ≠ 0x00000001 ∧ (0x00000000 : Word) ≠ 0x00000001 ∧
      { State.reset with events := [.host (.wrr .cmd 0x101)] }.events = .host (.wrr .cmd 0x101) :: [] ∧
      { running 0x10 0 [1] 0 with events := [.host (.wrr .cmd 0)] }.events = .host (.wrr .cmd 0) :: [] ∧
      (running 0x10 0 [1] 0).job = .busy) ∧
    (∀ b ∈ [0x00#8, 0x03#8, 0x55#8, 0x71#8, 0xFF#8], let s := running b 0 [1] 0
      s.events = [] ∧ s.job = .busy ∧ ∀ i, encode i ≠ .uop s.upc) := by
  refine ⟨by decide, ?_⟩
  simp only [List.forall_mem_cons]
  refine ⟨?_, ?_, ?_, ?_, ?_, by simp⟩ <;> exact ⟨rfl, rfl, fun i => by cases i <;> decide⟩

theorem witness_step :
    ((running 0x10 0 [1] 0).events = [] ∧ (running 0x10 0 [1] 0).job = .busy ∧ decodeUop 0x10 = .ok .kmul1) ∧
    ({ running 0x70 1 [1] 0 with events := [.slot] }.events = .slot :: [] ∧ decodeUop 0x70 = .ok .endJob) ∧
    (requested.events = .host (.wrr .cmd 0x00000001) :: [] ∧ decodeCommand 0x00000001 = .ok .hash) ∧
    (State.reset.events = [] ∧ State.reset.job ≠ .busy) ∧
    ({ State.reset with events := [.slot] }.events = .slot :: [] ∧ { State.reset with events := [.slot] }.job ≠ .busy) := by
  decide

theorem witness_nextUop : ∀ s ∈ [running 0x01 0 [1] 0, { running 0x01 0 [1] 0 with seedN := 2 }, running 0x20 0 [1] 0,
    running 0x20 0 [1, 2] 0, running 0x33 1 [1, 2] 0, running 0x33 1 [1, 2, 3] 0, running 0x70 1 [1] 0],
    s.cfg.firstWordFold = false ∧ s.events = [] ∧ s.job = .busy ∧ (after (step s)).isSome = true := by decide

theorem witness_jobState : ∀ s ∈ [running 0x10 0 [1] 0, requested, { running 0x01 0 [1] 0 with seedN := 2 },
    running 0x70 1 [1] 0, { running 0x10 0 [1] 0 with events := [.reset] }], (after (step s)).isSome = true := by decide

theorem witness_resetEvent :
    ({ running 0x30 1 [1, 2] 0 with events := [.reset] }.events = .reset :: [] ∧ (running 0x30 1 [1, 2] 0).job = .busy) ∧
    ({ described [1] 7 with events := [.reset] }.events = .reset :: [] ∧ (described [1] 7).job ≠ .busy) := by decide

theorem witness_hash : State.reset.job ≠ .busy ∧ { State.reset with job := .error, cause := 5 }.job ≠ .busy ∧
    (running 0x01 0 [1] 0).job = .busy := by decide

theorem witness_checkTraps : ∀ s ∈ [{ requested with keyNdim := 2 }, { requested with seedNdim := 0 }, { requested with seedN := 2 },
    { requested with dimL := 0 }, { requested with dimL := 4 }], ¬ LegalDescriptor s := by
  simp only [← violations_eq_zero_iff]
  decide

theorem witness_workUops : AllExist3 (snug (running 0x10 0 [1, 2] 0)) .work ∧ AllExist3 (snug (running 0x10 0 [1, 2] 0)) .key :=
  ⟨(State.fits_words3_iff _ _).1 (by decide), (State.fits_words3_iff _ _).1 (by decide)⟩

theorem witness_h1Uops : AllExist2 (snug (running 0x31 1 [1, 2] 0)) .h1 ∧ AllExist2 (snug (running 0x60 1 [1, 2] 0)) .out :=
  ⟨(State.fits_words2_iff _ _).1 (by decide), (State.fits_words2_iff _ _).1 (by decide)⟩

theorem witness_hinit : let s := snug (running 0x20 0 [1] 0)
    s.cfg.firstWordFold = false ∧ ColumnExists s 0 ∧ SeedsExist s ∧ AllExist2 s .h1 :=
  ⟨rfl, (State.fits_reach_iff _ _).1 (by decide), (State.fits_seedWords_iff _).1 (by decide), (State.fits_words2_iff _ _).1 (by decide)⟩

theorem witness_hinit_folded : let s := folded (snug (running 0x20 0 [1] 0))
    s.cfg.firstWordFold = true ∧ SeedsExist s ∧ AllExist2 s .h1 :=
  ⟨rfl, (State.fits_seedWords_iff _).1 (by decide), (State.fits_words2_iff _ _).1 (by decide)⟩

theorem witness_hxor : let s := snug (running 0x30 2 [1, 2, 3] 0)
    ColumnExists s s.idx.toNat ∧ AllExist2 s .h1 :=
  ⟨(State.fits_reach_iff _ _).1 (by decide), (State.fits_words2_iff _ _).1 (by decide)⟩

theorem witness_hadd : let s := { running 0x33 0xFFFFFFFE [] 0 with dimL := 0xFFFFFFFF }
    AllExist2 s .h1 ∧ s.idx.toNat < s.L := ⟨(State.fits_words2_iff _ _).1 (by decide), by decide⟩

/-- The job's words are none where nothing exists: what every clause of the missing words needs. -/
theorem witness_missingWords : let s := empty (running 0x30 1 [1, 2] 0)
    (¬ AllExist3 s .work ∧ ¬ AllExist3 s .key ∧ ¬ AllExist2 s .h1 ∧ ¬ AllExist2 s .out ∧ ¬ SeedsExist s ∧ ¬ ColumnExists s 0 ∧
      ¬ ColumnExists s s.idx.toNat ∧ s.cfg.firstWordFold = false) ∧ (folded s).cfg.firstWordFold = true ∧ ¬ SeedsExist (folded s) := by
  refine ⟨⟨fun h => ?_, fun h => ?_, fun h => ?_, fun h => ?_, fun h => ?_, fun h => ?_, fun h => ?_, rfl⟩, rfl, fun h => ?_⟩
  · exact absurd (h 0 0 0 (by decide) (by decide) (by decide)) (by decide)
  · exact absurd (h 0 0 0 (by decide) (by decide) (by decide)) (by decide)
  all_goals exact absurd (h 0 0 (by decide) (by decide)) (by decide)

theorem witness_unlisted : (running 0x10 0 [1] 0).events = [] ∧ Space.key ∉ touched 0x10 ∧ Space.work ∉ touched 0x31 ∧
    Space.seed ∉ touched 0x60 ∧ Space.out ∉ touched 0x01 ∧ Space.h1 ∉ touched 0x02 := by decide

theorem witness_sequencer : (running 0x60 1 [1] 0).events = [] ∧ (after (step (running 0x60 1 [1] 0))).isSome = true := by decide

/-- A state of the invariant in the middle of a job, with exact capacities. -/
def folding : State := snug { running 0x30 1 [0xC3539A5D, 0xEBDDB4BA] 0xC3539A5A with reads := [9] }

theorem folding_inv : Inv folding := by
  refine ⟨by decide, ⟨fun sp => by cases sp <;> decide, fun sp => by cases sp <;> decide⟩, ?_⟩
  constructor <;> decide

theorem witness_invariant : Inv folding ∧ folding.events = [] ∧ folding.job = .busy ∧ (after (step folding)).isSome = true :=
  ⟨folding_inv, by decide⟩

theorem witness_jobStart : let s := snug (running 0x01 0 [1] 0)
    s.cfg.firstWordFold = false ∧ s.events = [] ∧ JobStart s ∧ LegalDescriptor s :=
  ⟨rfl, rfl, by constructor <;> decide, by constructor <;> decide⟩

theorem witness_job : requested.cfg.firstWordFold = false ∧ JobRequested requested := ⟨rfl, requested_ok⟩

theorem witness_job_folded : (folded requested).cfg.firstWordFold = true ∧ JobRequested (folded requested) :=
  ⟨rfl, by decide, rfl, by constructor <;> decide, by decide, by decide⟩

theorem witness_failedJob : let s := asked 1 1 0 1 3 1 Config.standard
    s.job ≠ .busy ∧ s.events = [.host HostAction.hash] ∧ ¬ LegalDescriptor s := by
  simp only [← violations_eq_zero_iff]
  decide

/-- The same inputs, and everything else different. -/
def requestedElsewhere : State :=
  { requested with cfg := { Config.standard with lanes := 7 }, work := [(0, 5)], h1 := [(0, 6)], out := [(0, 8)], idx := 4,
                   job := .error, cause := 2, draws := 11 }

theorem witness_dependence : JobRequested requested ∧ JobRequested requestedElsewhere ∧
    requestedElsewhere.cfg.firstWordFold = false ∧ requested.dimS = requestedElsewhere.dimS ∧
    requested.dimK = requestedElsewhere.dimK ∧ requested.dimL = requestedElsewhere.dimL ∧
    (∀ a, a < requested.S * requested.K * requested.L → requested.key.read? a = requestedElsewhere.key.read? a) ∧
    ∀ a, a < requested.S → requested.seed.read? a = requestedElsewhere.seed.read? a :=
  ⟨requested_ok, ⟨by decide, rfl, by constructor <;> decide, by decide, by decide⟩, rfl, rfl, rfl, rfl, fun _ _ => rfl, fun _ _ => rfl⟩

theorem witness_seed : 0 < requested.S ∧ requested.seed.read? 0 ≠ some 8 := by decide

theorem witness_rotation : (1 ≤ 1 ∧ 1 ≤ 31) ∧ (1 ≤ 31 ∧ 31 ≤ 31) ∧ 0 < 32 ∧ 31 < 32 := by decide

theorem witness_bijections : c1.toNat % 2 = 1 ∧ c2.toNat % 2 = 1 ∧ m5.toNat % 2 = 1 ∧ fa.toNat % 2 = 1 ∧ fb.toNat % 2 = 1 := by
  decide

theorem witness_layout : let s := asked 2 3 2 2 3 1 Config.standard
    2 < s.K ∧ 1 < s.L ∧ s.a2 1 2 = s.a2 1 2 ∧ s.a3 1 2 1 = s.a3 1 2 1 := by decide

theorem witness_memory : Memory.wf [(0, 1), (3, 2)] ∧ (3 : Nat) ≠ 0 ∧
    ∀ c, Memory.read? [(0, 1), (3, 2)] c = Memory.read? [(0, 1), (3, 2)] c := ⟨by decide, by decide, fun _ => rfl⟩

theorem witness_packing : [1#8, 2#8, 3#8].length % 4 ≠ 0 ∧ [1#8, 2#8, 3#8, 4#8].length % 4 = 0 := by decide

theorem witness_registers : ∀ n ∈ [HostReg.status, .dimS, .dimK, .dimL, .seedN, .ndim, .idx], n ≠ .cmd ∧ State.reset.job ≠ .busy ∧
    { State.reset with events := [.host (.wrr n 0xFFFFFFFF), .host (.rdr n)] }.events =
      .host (.wrr n 0xFFFFFFFF) :: .host (.rdr n) :: [] := by decide

/-- A job has ended in DONE, the host has not read `STATUS` since, and the capacity leaves a word beyond the job's. -/
def unread : State :=
  { described [1] 7 with cfg := ⟨false, 1, some 2, some 2, some 2, some 2, some 2⟩, job := .done, frozen := ⟨1, 1, 1⟩,
                         out := [(0, 5), (1, 6)] }

theorem unread_inv : Inv unread := by
  refine ⟨by decide, ⟨fun sp => by cases sp <;> decide, fun sp => by cases sp <;> decide⟩, ?_⟩
  constructor <;> decide

theorem witness_anyTime : ∀ n ∈ [HostReg.status, .idx, .cmd], Inv { folding with events := [.host (.rdr n)] } ∧
    folding.job = .busy ∧ Inv { unread with events := [.host (.rdr n)] } ∧ unread.job ≠ .busy :=
  fun _ _ => ⟨folding_inv.withEvents _, rfl, unread_inv.withEvents _, by decide⟩

theorem witness_hostReads : folding.job = .busy ∧ folding.cfg.holds .out 0 = true ∧
    0 < folding.S * folding.K ∧ folding.S * folding.K ≤ 1 ∧ unread.job ≠ .busy ∧ unread.frozen.out ≤ 1 ∧
    (∀ c ∈ [(Space.key, 0, 1), (.seed, 0, 7), (.out, 1, 6)], unread.cfg.holds c.1 c.2.1 = true ∧
      (unread.space c.1).read? c.2.1 = some c.2.2) ∧
    (∀ act ∈ [HostAction.rdk 0, .rds 0, .rdo 0, .rdo 1, .rdr .dimS, .rdr .ndim],
      { folding with events := [.host act] }.events = .host act :: [] ∧
      { unread with events := [.host act] }.events = .host act :: []) := by decide

theorem witness_refusedWrites : folding.job = .busy ∧ (unread.job ≠ .busy ∧ 0 < unread.frozen.key ∧ 0 < unread.frozen.seed ∧
      0 < unread.frozen.out) ∧
    (∀ n ∈ [HostReg.status, .dimS, .idx], n ≠ .cmd ∧
      { folding with events := [.host (.wrr n 1)] }.events = .host (.wrr n 1) :: []) ∧
    { unread with events := [.host (.wrk 0 1)] }.events = .host (.wrk 0 1) :: [] ∧
    { unread with events := [.host (.wrs 0 1)] }.events = .host (.wrs 0 1) :: [] ∧
    { unread with events := [.host (.wro 0 1)] }.events = .host (.wro 0 1) :: [] := by decide

/-- The first word beyond those of the job, at the edge of the capacity, before the `STATUS` read and after it. -/
theorem witness_hostWrites : unread.job ≠ .busy ∧
    (unread.frozen.key ≤ 1 ∧ unread.cfg.holds .key 1 = true) ∧ (unread.frozen.seed ≤ 1 ∧ unread.cfg.holds .seed 1 = true) ∧
    (unread.frozen.out ≤ 1 ∧ unread.cfg.holds .out 1 = true) ∧
    { unread with events := [.host (.wro 1 1)] }.events = .host (.wro 1 1) :: [] ∧
    (described [1] 7).frozen.key ≤ 0 ∧ (described [1] 7).job ≠ .busy := by decide

theorem witness_output : ∀ j ∈ [JobState.done, .error, .idle], let s := { unread with job := j }
    s.job ≠ .busy ∧ s.out.read? 0 = some 5 ∧ s.cfg.holds .out 0 = true ∧
    { s with events := [.host (.rdr .status), .host (.rdo 0)] }.events = .host (.rdr .status) :: .host (.rdo 0) :: [] := by
  decide

/-- R207, R208: the words of the job stay frozen after its end until a `STATUS` read, the others do not. -/
theorem test_frozen_until_seen :
    refusalOf (step { unread with events := [.host (.wrk 0 9)] }) = some (.memoryWriteWhileJobOpen .key) ∧
    (after (step { unread with events := [.host (.wrk 1 9)] })).map (·.key) = some [(0, 1), (1, 9)] ∧
    (after (step { unread with events := [.host (.rdo 1)] })).map (·.reads) = some [6] ∧
    (after (runSteps 2 { unread with events := [.host (.rdr .status), .host (.wrk 0 9)] })).map (·.key) = some [(0, 9)] := by
  decide

/-- R23, D19, U4: reads of words while BUSY; of `OUT` the job's last word and the first word beyond. -/
theorem test_word_reads_busy :
    refusalOf (step { folding with events := [.host (.rdo 1)] }) = some (.memoryReadWhileBusy .out) ∧
    refusalOf (step { folding with events := [.host (.rdk 0)] }) = some (.memoryReadWhileBusy .key) ∧
    (after (step { folding with events := [.host (.rdo 0)] })).isSome = true ∧
    (after (step { unread with events := [.host (.rdk 0)] })).map (·.reads) = some [1] := by decide

/-- R23, R210, D19: accesses of registers while BUSY. -/
theorem test_registers_busy :
    refusalOf (step { folding with events := [.host (.rdr .dimL)] }) = some (.registerReadWhileBusy .dimL) ∧
    refusalOf (step { folding with events := [.host (.rdr .cmd)] }) = some (.registerReadWhileBusy .cmd) ∧
    refusalOf (step { folding with events := [.host (.wrr .idx 1)] }) = some (.registerWriteWhileBusy .idx) ∧
    (after (step { folding with events := [.host (.rdr .idx)] })).isSome = true := by decide

theorem witness_wait : { folding with events := [.host .wait] }.events = .host .wait :: [] ∧ folding.job = .busy ∧
    { State.reset with events := [.host .wait] }.events = .host .wait :: [] ∧ State.reset.job ≠ .busy := by decide

end Sys2Proof.Tests
end

section
/-! PROOFS. Every step of the machine keeps the invariant of Safety.lean. First the memories, then the control states of a
stopped and of a running job, then one lemma per kind of uop and per kind of host action; the two inversion lemmas of
Laws/Step.lean (`effect_of_exec`, `stepEffect`) put them together. -/

namespace Sys2Proof.Machine

/-! ### The memories -/

/-- `MemoryInv` speaks of the spaces and of their capacities only. -/
theorem MemoryInv.congr {s t : State} (M : MemoryInv s) (hcfg : t.cfg = s.cfg) (hsp : ∀ sp, t.space sp = s.space sp) :
    MemoryInv t where
  canonical sp := by rw [hsp]; exact M.canonical sp
  exist sp := by rw [hsp, hcfg]; exact M.exist sp

theorem MemoryInv.forall2 {s : State} (M : MemoryInv s) {dst : Space} (hfit : s.fits dst s.words2 = true)
    (f : Nat → Nat → Word) : MemoryInv (s.forall2 dst f) where
  canonical sp := s.wf_forall2 dst sp f (M.canonical sp)
  exist sp c hc := by
    rw [State.forall2_cfg]
    rcases s.mem_forall2 hc with ⟨rfl, hlt⟩ | hold
    · exact State.holds_of_fits hfit hlt
    · exact M.exist sp c hold

theorem MemoryInv.forall3 {s : State} (M : MemoryInv s) {dst : Space} (hfit : s.fits dst s.words3 = true)
    (f : Nat → Nat → Nat → Word) : MemoryInv (s.forall3 dst f) where
  canonical sp := s.wf_forall3 dst sp f (M.canonical sp)
  exist sp c hc := by
    rw [State.forall3_cfg]
    rcases s.mem_forall3 hc with ⟨rfl, hlt⟩ | hold
    · exact State.holds_of_fits hfit hlt
    · exact M.exist sp c hold

theorem MemoryInv.setSpace {s : State} (M : MemoryInv s) {sp : Space} {m : Memory} (hwf : m.wf)
    (hex : ∀ c ∈ m, s.cfg.holds sp c.1 = true) : MemoryInv (s.setSpace sp m) where
  canonical sq := by
    by_cases e : sq = sp
    · subst e; rwa [State.space_setSpace_self]
    · rw [s.space_setSpace_ne m e]; exact M.canonical sq
  exist sq := by
    rw [State.setSpace_cfg]
    by_cases e : sq = sp
    · subst e; rwa [State.space_setSpace_self]
    · rw [s.space_setSpace_ne m e]; exact M.exist sq

theorem MemoryInv.write {s : State} (M : MemoryInv s) {sp : Space} {a : Nat} (hex : s.cfg.holds sp a = true) (v : Word) :
    MemoryInv (s.setSpace sp ((s.space sp).write a v)) :=
  M.setSpace (Memory.wf_write (M.canonical sp) a v) fun c hc => by
    rcases Memory.mem_write hc with hnew | hold
    · rwa [hnew]
    · exact M.exist sp c hold

theorem MemoryInv.clear {s : State} (M : MemoryInv s) (sp : Space) : MemoryInv (s.setSpace sp []) :=
  M.setSpace Memory.wf_nil (by simp)

theorem MemoryInv.of_resetBlock {s : State} (M : MemoryInv s) : MemoryInv (resetBlock s) := by
  have M2 : MemoryInv ((s.setSpace .work []).setSpace .h1 []) := (M.clear .work).clear .h1
  by_cases hb : s.job = .busy
  · exact (M2.clear .out).congr rfl fun sp => by cases sp <;> simp [State.setSpace, hb]
  · exact M2.congr rfl fun sp => by cases sp <;> simp [State.setSpace, hb]

/-- A step over Idx2 writes every word of its destination that the job uses. -/
theorem State.written_forall2 (s : State) (dst : Space) (f : Nat → Nat → Word) :
    (s.forall2 dst f).written dst s.words2 := fun a ha => by
  rw [s.read?_forall2, if_pos ha]; rfl

/-- A step over Idx3 writes every word of its destination that the job uses. -/
theorem State.written_forall3 (s : State) (dst : Space) (f : Nat → Nat → Nat → Word) :
    (s.forall3 dst f).written dst s.words3 := fun a ha => by
  rw [s.read?_forall3, if_pos ha]; rfl

/-! ### Control states -/

/-- While no job runs the control state is legal by four conditions alone. -/
theorem JobInv.of_stopped {t : State} (hb : t.job ≠ .busy) (hupc : t.upc = 0x00) (hclear : t.job ≠ .error → t.cause = 0)
    (herror : t.job = .error → t.cause ≠ 0 ∧ t.idx = 0) : JobInv t where
  upcBusy h := absurd h hb
  upcStopped _ := hupc
  causeClear := hclear
  causeSet h := (herror h).1
  frozenBusy h := absurd h hb
  checked h := absurd h hb
  idxBefore h := absurd h hb
  idxLow h := absurd h hb
  idxHigh h := absurd h hb
  idxAfter h := absurd h hb
  idxError h := (herror h).2
  workWritten h := absurd h hb
  h1Written h := absurd h hb
  outWritten h := absurd h hb

/-- While no job runs, only `STATE`, `UPC`, `CAUSE` and `IDX` matter to the control state. -/
theorem JobInv.congr_stopped {s t : State} (C : JobInv s) (hb : s.job ≠ .busy) (hjob : t.job = s.job)
    (hupc : t.upc = s.upc) (hcause : t.cause = s.cause) (hidx : t.idx = s.idx) : JobInv t := by
  refine JobInv.of_stopped (by rwa [hjob]) (hupc.trans (C.upcStopped hb)) ?_ ?_ <;> rw [hjob, hcause]
  · exact C.causeClear
  · rw [hidx]; exact fun h => ⟨C.causeSet h, C.idxError h⟩

/-- The control state of a job that a uop takes on to a later uop, by the clauses that depend on `UPC`; the descriptor,
`CAUSE` and what is frozen stay as they were. -/
theorem JobInv.advance {s t : State} (C : JobInv s) (hb : s.job = .busy)
    (frame : t = { stage s t.work t.h1 t.idx t.upc t.draws with out := t.out })
    (legal : violations s = 0)
    (upc : t.upc ∈ beforeFold ++ inFold ++ afterFold)
    (idxBefore : t.upc ∈ beforeFold → t.idx = 0)
    (idxFold : t.upc ∈ inFold → s.firstFolded ≤ t.idx.toNat ∧ t.idx.toNat < s.L)
    (idxAfter : t.upc ∈ afterFold → t.idx = s.dimL)
    (work : t.upc ≠ 0x02 → t.written .work s.words3)
    (h1 : t.upc ∈ inFold ++ afterFold → t.written .h1 s.words2)
    (out : t.upc = 0x70 → t.written .out s.words2) : JobInv t := by
  have hnerr : s.job ≠ .error := by simp [hb]
  rw [frame]
  exact {
    upcBusy := fun _ => upc
    upcStopped := fun h => absurd hb h
    causeClear := C.causeClear
    causeSet := C.causeSet
    frozenBusy := C.frozenBusy
    checked := fun _ _ => legal
    idxBefore := fun _ => idxBefore
    idxLow := fun _ h => (idxFold h).1
    idxHigh := fun _ h => (idxFold h).2
    idxAfter := fun _ => idxAfter
    idxError := fun h => absurd h hnerr
    workWritten := fun _ _ => work
    h1Written := fun _ => h1
    outWritten := fun _ => out }

theorem JobInv.of_beginJob (s : State) : JobInv (beginJob s) where
  upcBusy _ := by simp
  upcStopped h := absurd rfl h
  causeClear _ := rfl
  causeSet h := by simp at h
  frozenBusy _ := ⟨Nat.le_max_right _ _, Nat.le_max_right _ _, Nat.le_max_right _ _⟩
  checked _ h := absurd rfl h
  idxBefore _ _ := rfl
  idxLow _ h := by simp at h
  idxHigh _ h := by simp at h
  idxAfter _ h := by simp at h
  idxError h := by simp at h
  workWritten _ h := absurd rfl h
  h1Written _ h := by simp at h
  outWritten _ h := by simp at h

/-! ### The uops -/

theorem beforeFold_disjoint : ∀ u ∈ beforeFold, u ∉ inFold ++ afterFold := by decide

theorem L_pos_of_legal {s : State} (legal : violations s = 0) : 0 < s.L :=
  Nat.pos_of_ne_zero fun e => ((violations_eq_zero_iff s).1 legal).wordLen (BitVec.eq_of_toNat_eq e)

section
variable {s : State} (I : Inv s) (hb : s.job = .busy)
include I hb

theorem Inv.of_check_error (hs : s.upc = 0x01) (hv : violations s ≠ 0) : Inv (raiseContractError (violations s) s) where
  config := I.config
  memory := I.memory.congr rfl fun sp => by cases sp <;> rfl
  control := JobInv.of_stopped (by simp) rfl (by simp) fun _ => ⟨hv, I.control.idxBefore hb (by simp [hs])⟩

theorem Inv.of_check_pass (hs : s.upc = 0x01) (hv : violations s = 0) : Inv (s.goto 0x02) where
  config := I.config
  memory := I.memory.congr rfl fun sp => by cases sp <;> rfl
  control := I.control.advance hb rfl hv (by simp) (fun _ => I.control.idxBefore hb (by simp [hs])) (by simp) (by simp)
    (by simp) (by simp) (by simp)

/-- COPY, KMUL1, KROT, KMUL2: a step over `WORK` before HINIT. -/
theorem Inv.of_workUop (hs : s.upc ∈ beforeFold) (hs1 : s.upc ≠ 0x01) (hfit : s.fits .work s.words3 = true)
    (f : Nat → Nat → Nat → Word) {u : Byte} (hu : u ∈ beforeFold) : Inv ((s.forall3 .work f).goto u) where
  config := I.config
  memory := (I.memory.forall3 hfit f).congr rfl fun sp => by cases sp <;> rfl
  control := by
    have hlate : u ∉ inFold ++ afterFold := beforeFold_disjoint u hu
    refine I.control.advance hb rfl (I.control.checked hb hs1) ?_ ?_ ?_ ?_ ?_ ?_ ?_
    · exact List.mem_append_left _ (List.mem_append_left _ hu)
    · exact fun _ => I.control.idxBefore hb hs
    · exact fun h => absurd (List.mem_append_left _ h) hlate
    · exact fun h => absurd (List.mem_append_right _ h) hlate
    · exact fun _ => s.written_forall3 .work f
    · exact fun h => absurd h hlate
    · rintro rfl; exact absurd (by decide) hlate

/-- HINIT to FSX16B: a step over `H1`, from which the job goes on to the uop `u` with the word index `i`. -/
theorem Inv.of_h1Uop (hs1 : s.upc ≠ 0x01) (hs2 : s.upc ≠ 0x02) (hfit : s.fits .h1 s.words2 = true)
    (f : Nat → Nat → Word) {u : Byte} {i : Word} (hu : u ∈ inFold ++ afterFold) (hu70 : u ≠ 0x70)
    (hfold : u ∈ inFold → s.firstFolded ≤ i.toNat ∧ i.toNat < s.L) (hafter : u ∈ afterFold → i = s.dimL) :
    Inv { s.forall2 .h1 f with idx := i, upc := u } where
  config := I.config
  memory := (I.memory.forall2 hfit f).congr rfl fun sp => by cases sp <;> rfl
  control := by
    refine I.control.advance hb rfl (I.control.checked hb hs1) ?_ ?_ hfold hafter ?_ ?_ ?_
    · rw [List.append_assoc]; exact List.mem_append_right _ hu
    · exact fun h => absurd hu (beforeFold_disjoint u h)
    · exact fun _ => I.control.workWritten hb hs1 hs2
    · exact fun _ => s.written_forall2 .h1 f
    · exact fun h => absurd h hu70

/-- HXOR, HROT, HMUL5: `IDX` stays where it is in the loop. -/
theorem Inv.of_foldUop (hs : s.upc ∈ inFold) (hfit : s.fits .h1 s.words2 = true) (f : Nat → Nat → Word) {u : Byte}
    (hu : u ∈ inFold) : Inv ((s.forall2 .h1 f).goto u) := by
  have hne : ∀ u ∈ inFold, u ≠ 0x01 ∧ u ≠ 0x02 ∧ u ≠ 0x70 ∧ u ∉ afterFold := by decide
  obtain ⟨hs1, hs2, -, -⟩ := hne _ hs
  obtain ⟨-, -, hu70, hlate⟩ := hne u hu
  exact I.of_h1Uop hb hs1 hs2 hfit f (List.mem_append_left _ hu) hu70
    (fun _ => ⟨I.control.idxLow hb hs, I.control.idxHigh hb hs⟩) fun h => absurd h hlate

/-- HLEN and the five avalanche uops: `IDX` stays `L`. -/
theorem Inv.of_finalUop (hs : s.upc ∈ afterFold) (hfit : s.fits .h1 s.words2 = true) (f : Nat → Nat → Word) {u : Byte}
    (hu : u ∈ afterFold) (hu70 : u ≠ 0x70) : Inv ((s.forall2 .h1 f).goto u) := by
  have hne : ∀ u ∈ afterFold, u ≠ 0x01 ∧ u ≠ 0x02 ∧ u ∉ inFold := by decide
  obtain ⟨hs1, hs2, -⟩ := hne _ hs
  obtain ⟨-, -, hearly⟩ := hne u hu
  exact I.of_h1Uop hb hs1 hs2 hfit f (List.mem_append_right _ hu) hu70 (fun h => absurd h hearly)
    fun _ => I.control.idxAfter hb hs

/-- HINIT on this hardware: the fold starts at word 1, and is left out if there is no such word. -/
theorem Inv.of_hinit (hs : s.upc = 0x20) (h0 : s.cfg.firstWordFold = false) (hfit : s.fits .h1 s.words2 = true)
    (f : Nat → Nat → Word) : Inv { s.forall2 .h1 f with idx := 1, upc := if 1 < s.L then 0x30 else 0x40 } := by
  have hL : 0 < s.L := L_pos_of_legal (I.control.checked hb (by simp [hs]))
  by_cases h : 1 < s.L
  · rw [if_pos h]
    exact I.of_h1Uop hb (by simp [hs]) (by simp [hs]) hfit f (by simp) (by simp)
      (fun _ => ⟨by simp [State.firstFolded, h0], h⟩) (by simp)
  · rw [if_neg h]
    exact I.of_h1Uop hb (by simp [hs]) (by simp [hs]) hfit f (by simp) (by simp) (by simp)
      fun _ => BitVec.eq_of_toNat_eq (show 1 = s.L by omega)

/-- HINIT under the other reading (R135): the fold starts at word 0. -/
theorem Inv.of_hinit_folded (hs : s.upc = 0x20) (h0 : s.cfg.firstWordFold = true) (hfit : s.fits .h1 s.words2 = true)
    (f : Nat → Nat → Word) : Inv { s.forall2 .h1 f with idx := 0, upc := 0x30 } := by
  have hL : 0 < s.L := L_pos_of_legal (I.control.checked hb (by simp [hs]))
  exact I.of_h1Uop hb (by simp [hs]) (by simp [hs]) hfit f (by simp) (by simp) (fun _ => ⟨by simp [h0], hL⟩) (by simp)

/-- HADD: the loop test keeps `IDX` below `L` in the fold, and leaves it at `L` after the last word. -/
theorem Inv.of_hadd (hs : s.upc = 0x33) (hfit : s.fits .h1 s.words2 = true) (f : Nat → Nat → Word) :
    Inv { s.forall2 .h1 f with idx := s.idx + 1, upc := if s.idx.toNat + 1 < s.L then 0x30 else 0x40 } := by
  have hlow := I.control.idxLow hb (by simp [hs])
  have hhigh := I.control.idxHigh hb (by simp [hs])
  have hL : s.L < 2 ^ 32 := s.dimL.isLt
  by_cases h : s.idx.toNat + 1 < s.L
  · have hidx : (s.idx + 1).toNat = s.idx.toNat + 1 := BitVec.toNat_add_of_lt (show s.idx.toNat + 1 < 2 ^ 32 by omega)
    rw [if_pos h]
    exact I.of_h1Uop hb (by simp [hs]) (by simp [hs]) hfit f (by simp) (by simp) (fun _ => by omega) (by simp)
  · have hidx : s.idx + 1 = s.dimL := by
      apply BitVec.eq_of_toNat_eq
      rw [BitVec.toNat_add]
      change (s.idx.toNat + 1) % 2 ^ 32 = s.L
      omega
    rw [if_neg h]
    exact I.of_h1Uop hb (by simp [hs]) (by simp [hs]) hfit f (by simp) (by simp) (by simp) fun _ => hidx

theorem Inv.of_hout (hs : s.upc = 0x60) (hfit : s.fits .out s.words2 = true) (f : Nat → Nat → Word) :
    Inv ((s.forall2 .out f).goto 0x70) where
  config := I.config
  memory := (I.memory.forall2 hfit f).congr rfl fun sp => by cases sp <;> rfl
  control := I.control.advance hb rfl (I.control.checked hb (by simp [hs])) (by simp) (by simp) (by simp)
    (fun _ => I.control.idxAfter hb (by simp [hs])) (fun _ => I.control.workWritten hb (by simp [hs]) (by simp [hs]))
    (fun _ => I.control.h1Written hb (by simp [hs])) fun _ => s.written_forall2 .out f

theorem Inv.of_endJob : Inv { s with job := .done, upc := 0x00 } where
  config := I.config
  memory := I.memory.congr rfl fun sp => by cases sp <;> rfl
  control := JobInv.of_stopped (by simp) rfl (fun _ => I.control.causeClear (by simp [hb])) (by simp)

/-- The uop in `UPC` keeps the invariant. -/
theorem Inv.of_exec {t : State} {i : Instr} (hc : encode i = .uop s.upc) (h : exec i s = .next t) : Inv t := by
  have e := effect_of_exec h
  have hs : ∀ {u}, encode i = .uop u → s.upc = u := fun hu => Code.uop.inj (hc.symm.trans hu)
  cases i
  case hash => cases hc
  case check =>
    rcases e with ⟨hv, rfl⟩ | ⟨hv, rfl⟩
    · exact I.of_check_error hb (hs rfl) hv
    · exact I.of_check_pass hb (hs rfl) hv
  case hinit =>
    obtain ⟨hfit, ⟨h0, rfl⟩ | ⟨h0, rfl⟩⟩ := e
    · exact I.of_hinit hb (hs rfl) h0 hfit _
    · exact I.of_hinit_folded hb (hs rfl) h0 hfit _
  case hadd => obtain ⟨rfl, hfit⟩ := e; exact I.of_hadd hb (hs rfl) hfit _
  case hout => obtain ⟨rfl, hfit⟩ := e; exact I.of_hout hb (hs rfl) hfit _
  case endJob => rw [show t = _ from e]; exact I.of_endJob hb
  case copy | kmul1 | krot | kmul2 =>
    obtain ⟨rfl, hfit⟩ := e
    exact I.of_workUop hb (hs rfl ▸ by decide) (hs rfl ▸ by decide) hfit _ (by decide)
  case hxor | hrot | hmul5 =>
    obtain ⟨rfl, hfit⟩ := e
    exact I.of_foldUop hb (hs rfl ▸ by decide) hfit _ (by decide)
  case hlen | fsx16a | fmula | fsx13 | fmulb | fsx16b =>
    obtain ⟨rfl, hfit⟩ := e
    exact I.of_finalUop hb (hs rfl ▸ by decide) hfit _ (by decide) (by decide)

end

/-! ### The host's actions and reset -/

/-- The model's own fields are not in the invariant, and what is frozen is there while BUSY only. -/
theorem Inv.of_ownFields {s : State} (I : Inv s) {u : Frozen} (hu : u = s.frozen ∨ s.job ≠ .busy ∧ u = ⟨0, 0, 0⟩)
    (ev : List Event) (rd : List Word) (d : Nat) : Inv { s with frozen := u, events := ev, reads := rd, draws := d } where
  config := I.config
  memory := I.memory.congr rfl fun sp => by cases sp <;> rfl
  control := by
    by_cases hb : s.job = .busy
    · obtain rfl : u = s.frozen := hu.resolve_right fun h => h.1 hb
      exact { I.control with }
    · exact I.control.congr_stopped hb rfl rfl rfl rfl

theorem Inv.of_resetBlock {s : State} (I : Inv s) : Inv (resetBlock s) where
  config := I.config
  memory := I.memory.of_resetBlock
  control := JobInv.of_stopped (by simp) rfl (fun _ => rfl) (by simp)

theorem Inv.of_beginJob {s : State} (I : Inv s) : Inv (beginJob s) where
  config := I.config
  memory := I.memory.congr rfl fun sp => by cases sp <;> rfl
  control := JobInv.of_beginJob s

theorem Inv.of_setRegister {s : State} (I : Inv s) (hb : s.job ≠ .busy) (n : HostReg) (v : Word) :
    Inv (setRegister n v s) where
  config := by rw [setRegister_cfg]; exact I.config
  memory := I.memory.congr (by simp) fun sp => by cases sp <;> simp
  control := I.control.congr_stopped hb (by simp) (by simp) (by simp) (by simp)

theorem Inv.of_write {s : State} (I : Inv s) (hb : s.job ≠ .busy) {sp : Space} {a : Nat} (hex : s.cfg.holds sp a = true)
    (v : Word) : Inv (s.setSpace sp ((s.space sp).write a v)) where
  config := by rw [State.setSpace_cfg]; exact I.config
  memory := I.memory.write hex v
  control := I.control.congr_stopped hb (by simp) (by simp) (by simp) (by simp)

/-- Settles O37, by the cases of what a step can do. -/
theorem everyStepKeepsTheInvariant : Obligations.EveryStepKeepsTheInvariant := by
  intro s t I h
  cases stepEffect h with
  | uop i r busy code run => exact (I.withEvents r).of_exec busy code run
  | own u ev rd d eq keep => rw [eq]; exact I.of_ownFields keep ev rd d
  | reset r _ eq => rw [eq]; exact (I.withEvents r).of_resetBlock
  | hash r _ _ eq => rw [eq]; exact (I.withEvents r).of_beginJob
  | descriptor r n v idle eq => rw [eq]; exact (I.withEvents r).of_setRegister idle n v
  | store r sp a v idle _ ex eq =>
    rw [eq]
    have hsp : ({ s with events := r } : State).space sp = s.space sp := by cases sp <;> rfl
    rw [← hsp]
    exact (I.withEvents r).of_write idle ex v

end Sys2Proof.Machine
end

section
/-! PROOFS. The architectural state and the host interface (10_state.md). First one rule per outcome of a step, of the
sequencer's turn and of each host access; then the fields of the `STATUS` and `NDIM` words; then the statements. -/

namespace Sys2Proof.Machine

/-! ### The step takes the first event -/

theorem step_of_noEvent {s : State} (he : s.events = []) : step s = sequencerTurn s := by
  simp only [step, he]

theorem step_of_event {s : State} {e : Event} {rest : List Event} (he : s.events = e :: rest) :
    step s = deliver e { s with events := rest } := by
  simp only [step, he]

theorem step_of_host {s : State} {a : HostAction} {rest : List Event} (he : s.events = .host a :: rest) :
    step s = hostAction a { s with events := rest } :=
  step_of_event he

theorem sequencerTurn_of_decode {s : State} {i : Instr} (hb : s.job = .busy) (hi : decodeUop s.upc = .ok i) :
    sequencerTurn s = exec i s := by
  simp only [sequencerTurn, if_pos hb, hi]

theorem sequencerTurn_of_stopped {s : State} (hb : s.job ≠ .busy) : sequencerTurn s = .next s :=
  if_neg hb

theorem writeCommand_of_decode {w : Word} {i : Instr} (s : State) (hi : decodeCommand w = .ok i) :
    writeCommand w s = exec i s := by
  simp only [writeCommand, hi]

/-! ### The event queue is no part of a space -/

@[simp] theorem State.space_withEvents (s : State) (r : List Event) (sp : Space) :
    ({ s with events := r } : State).space sp = s.space sp := by cases sp <;> rfl

@[simp] theorem State.setSpace_withEvents (s : State) (r : List Event) (sp : Space) (m : Memory) :
    ({ s with events := r } : State).setSpace sp m = { s.setSpace sp m with events := r } := by cases sp <;> rfl

/-! ### Register accesses -/

theorem step_of_registerWrite_busy {s : State} {n : HostReg} {v : Word} {rest : List Event}
    (he : s.events = .host (.wrr n v) :: rest) (hb : s.job = .busy) (hn : n ≠ .cmd) :
    step s = .refused (.registerWriteWhileBusy n) := by
  rw [step_of_host he]
  cases n
  case cmd => exact absurd rfl hn
  all_goals exact if_pos hb

theorem step_of_registerWrite_stopped {s : State} {n : HostReg} {v : Word} {rest : List Event}
    (he : s.events = .host (.wrr n v) :: rest) (hb : s.job ≠ .busy) (hn : n ≠ .cmd) :
    step s = .next (setRegister n v { s with events := rest }) := by
  rw [step_of_host he]
  cases n
  case cmd => exact absurd rfl hn
  all_goals exact if_neg hb

theorem step_of_registerRead_busy {s : State} {n : HostReg} {rest : List Event}
    (he : s.events = .host (.rdr n) :: rest) (hb : s.job = .busy) (hs : n ≠ .status) (hi : n ≠ .idx) :
    step s = .refused (.registerReadWhileBusy n) := by
  rw [step_of_host he]
  cases n
  case status => exact absurd rfl hs
  case idx => exact absurd rfl hi
  all_goals exact if_pos hb

/-- A read of `STATUS` while no job runs also ends the freezing of the job's words (log 8). -/
theorem step_of_registerRead_stopped {s : State} {n : HostReg} {rest : List Event}
    (he : s.events = .host (.rdr n) :: rest) (hb : s.job ≠ .busy) :
    step s = .next { s with events := rest, reads := registerValue n s :: s.reads,
                            frozen := if n = .status then ⟨0, 0, 0⟩ else s.frozen } := by
  rw [step_of_host he]
  cases n
  case status => simp only [hostAction, readRegister, readStatus, if_neg hb]; rfl
  case idx => rfl
  all_goals exact if_neg hb

/-- A register write leaves what every other register reads as. -/
theorem registerValue_setRegister_ne {m n : HostReg} (v : Word) (s : State) (h : n ≠ m) :
    registerValue m (setRegister n v s) = registerValue m s := by
  cases n <;> cases m
  case dimS.dimS | dimK.dimK | dimL.dimL | seedN.seedN | ndim.ndim => exact absurd rfl h
  all_goals rfl

/-! ### Word accesses -/

theorem writeSpace_of_frozen {s : State} {sp : Space} {a : Nat} (v : Word)
    (h : s.job = .busy ∨ a < s.frozenWords sp) : writeSpace sp a v s = .refused (.memoryWriteWhileJobOpen sp) :=
  if_pos ((s.isFrozen_iff sp a).2 h)

theorem State.not_isFrozen {s : State} {sp : Space} {a : Nat} (hb : s.job ≠ .busy) (ha : s.frozenWords sp ≤ a) :
    ¬ s.isFrozen sp a = true := by
  rw [s.isFrozen_iff, not_or, Nat.not_lt]
  exact ⟨hb, ha⟩

theorem writeSpace_of_free {s : State} {sp : Space} {a : Nat} (v : Word) (hb : s.job ≠ .busy)
    (ha : s.frozenWords sp ≤ a) (hx : s.cfg.holds sp a = true) :
    writeSpace sp a v s = .next (s.setSpace sp ((s.space sp).write a v)) :=
  (if_neg (State.not_isFrozen hb ha)).trans (if_pos hx)

theorem readInput_of_busy {s : State} (sp : Space) (a : Nat) (hb : s.job = .busy) :
    readInput sp a s = .refused (.memoryReadWhileBusy sp) :=
  if_pos hb

theorem readInput_of_stopped {s : State} {sp : Space} {a : Nat} (hb : s.job ≠ .busy) (hx : s.cfg.holds sp a = true) :
    readInput sp a s = .next (deliverFree (s.load sp a) s) :=
  (if_neg hb).trans (if_pos hx)

theorem readOutput_of_beyond {s : State} {a : Nat} (hb : s.job = .busy) (ha : s.words2 ≤ a) :
    readOutput a s = .refused (.memoryReadWhileBusy .out) :=
  if_pos ⟨hb, ha⟩

/-- A read of `OUT` returns the word unless it is frozen, and a free value then (log 9). -/
theorem readOutput_of_readable {s : State} {a : Nat} (h : s.job = .busy → a < s.words2)
    (hx : s.cfg.holds .out a = true) :
    readOutput a s =
      .next (deliverFree (if s.isFrozen .out a then Config.freeWord .out s.draws a else s.load .out a) s) :=
  (if_neg fun hab => Nat.not_le.2 (h hab.1) hab.2).trans (if_pos hx)

/-- A host read of a word while BUSY, unless it is one of the job's words of `OUT`. -/
theorem hostRead_refused {s : State} {a : Nat} {sp : Space} {act : HostAction}
    (h : (sp, act) ∈ [(Space.key, HostAction.rdk a), (.seed, .rds a), (.out, .rdo a)]) (hb : s.job = .busy)
    (hbeyond : sp = .out → s.words2 ≤ a) : hostAction act s = .refused (.memoryReadWhileBusy sp) := by
  simp only [List.mem_cons, Prod.mk.injEq, List.not_mem_nil, or_false] at h
  obtain ⟨rfl, rfl⟩ | ⟨rfl, rfl⟩ | ⟨rfl, rfl⟩ := h
  · exact readInput_of_busy .key a hb
  · exact readInput_of_busy .seed a hb
  · exact readOutput_of_beyond hb (hbeyond rfl)

/-- A host read of an existing word that is allowed: it returns the word if no job runs and it is not frozen. -/
theorem hostRead_completes {s : State} {a : Nat} {sp : Space} {act : HostAction}
    (h : (sp, act) ∈ [(Space.key, HostAction.rdk a), (.seed, .rds a), (.out, .rdo a)])
    (hb : s.job = .busy → sp = .out ∧ a < s.words2) (hx : s.cfg.holds sp a = true) :
    ∃ w, hostAction act s = .next (deliverFree w s) ∧
      (s.job ≠ .busy → (sp = .out → s.frozen.out ≤ a) → w = s.load sp a) := by
  simp only [List.mem_cons, Prod.mk.injEq, List.not_mem_nil, or_false] at h
  obtain ⟨rfl, rfl⟩ | ⟨rfl, rfl⟩ | ⟨rfl, rfl⟩ := h
  · exact ⟨_, readInput_of_stopped (fun e => absurd (hb e).1 (by decide)) hx, fun _ _ => rfl⟩
  · exact ⟨_, readInput_of_stopped (fun e => absurd (hb e).1 (by decide)) hx, fun _ _ => rfl⟩
  · exact ⟨_, readOutput_of_readable (fun e => (hb e).2) hx,
      fun hs hf => if_neg (State.not_isFrozen hs (hf rfl))⟩

/-! ### The fields of `STATUS` and `NDIM` -/

theorem jobCode_lt (j : JobState) : jobCode j < 4 := by cases j <;> decide

/-- The fields of R25 do not overlap and fit in the word. -/
theorem statusWord_toNat (s : State) :
    (statusWord s).toNat = jobCode s.job + 2 ^ 4 * s.cause.toNat + 2 ^ 8 * s.upc.toNat := by
  have := jobCode_lt s.job
  have := s.cause.isLt
  have := s.upc.isLt
  rw [statusWord, BitVec.toNat_ofNat, Nat.mod_eq_of_lt (by omega)]

/-- A field of `STATUS`, as a number. -/
theorem statusWord_field_toNat (s : State) (i n : Nat) : ((statusWord s).extractLsb' i n).toNat =
    (jobCode s.job + 2 ^ 4 * s.cause.toNat + 2 ^ 8 * s.upc.toNat) / 2 ^ i % 2 ^ n := by
  rw [BitVec.extractLsb'_toNat, statusWord_toNat, Nat.shiftRight_eq_div_pow]

theorem statusWord_upc (s : State) : (statusWord s).extractLsb' 8 8 = s.upc := by
  have := jobCode_lt s.job
  have := s.cause.isLt
  have := s.upc.isLt
  apply BitVec.eq_of_toNat_eq
  rw [statusWord_field_toNat]
  omega

/-- The low byte of `STATUS` while a job runs: `STATE` 1, the reserved bits and `CAUSE` 0. -/
theorem statusWord_low_of_busy {s : State} (hb : s.job = .busy) (hc : s.cause = 0) :
    (statusWord s).extractLsb' 0 8 = 1 := by
  apply BitVec.eq_of_toNat_eq
  rw [statusWord_field_toNat, hb, hc]
  show (1 + 2 ^ 4 * 0 + 2 ^ 8 * s.upc.toNat) / 2 ^ 0 % 2 ^ 8 = 1
  omega

/-- R30: of a word written to `NDIM` the low eight bits read back. -/
theorem ndimWord_setRegister (v : Word) (s : State) : ndimWord (setRegister .ndim v s) = v &&& 0x000000FF := by
  apply BitVec.eq_of_toNat_eq
  have hmask : (v &&& 0x000000FF).toNat = v.toNat % 2 ^ 8 := Nat.and_two_pow_sub_one_eq_mod v.toNat 8
  rw [hmask]
  simp only [ndimWord, setRegister, BitVec.toNat_ofNat, BitVec.extractLsb'_toNat, Nat.shiftRight_eq_div_pow]
  omega

/-- The codes that the invariant allows in `UPC` while BUSY are those of the uops of a job. -/
theorem exists_encode_of_mem_codes : ∀ u ∈ beforeFold ++ inFold ++ afterFold, ∃ i ∈ jobSeq 2, encode i = .uop u := by
  decide

/-! ### The step, and the changes of `STATE` -/

/-- Of the uops only a failing CHECK and END change `STATE`. -/
theorem job_of_exec {s t : State} {i : Instr} (hi : i.isUop = true) (h : exec i s = .next t) :
    t.job = s.job ∨ (i = .check ∧ violations s ≠ 0 ∧ t = raiseContractError (violations s) s) ∨
      (i = .endJob ∧ t = { s with job := .done, upc := 0x00 }) := by
  have e := effect_of_exec h
  cases i
  case hash => exact absurd hi (by decide)
  case check =>
    obtain ⟨hv, ht⟩ | ⟨-, rfl⟩ := e
    · exact .inr (.inl ⟨rfl, hv, ht⟩)
    · exact .inl rfl
  case hinit => obtain ⟨-, ⟨-, rfl⟩ | ⟨-, rfl⟩⟩ := e <;> exact .inl rfl
  case endJob => exact .inr (.inr ⟨rfl, e⟩)
  all_goals obtain ⟨rfl, -⟩ := e; exact .inl rfl

/-- Settles O6, by the cases of what a step can do. -/
theorem jobStateChangesOnlyByTheTable : Obligations.JobStateChangesOnlyByTheTable := by
  intro s t h
  cases stepEffect h with
  | uop i r busy code run =>
    obtain hkeep | ⟨rfl, hv, rfl⟩ | ⟨rfl, rfl⟩ := job_of_exec (isUop_of_encode code) run
    · exact .inl hkeep
    · exact .inr (.inr (.inl ⟨busy, rfl, (Code.uop.inj code).symm, hv, rfl, rfl⟩))
    · exact .inr (.inr (.inr (.inl ⟨busy, rfl, (Code.uop.inj code).symm, rfl⟩)))
  | own u ev rd d eq _ => exact .inl (by rw [eq])
  | reset r ev eq => exact .inr (.inr (.inr (.inr ⟨by rw [eq, resetBlock_job], r, ev⟩)))
  | hash r ev idle eq => subst eq; exact .inr (.inl ⟨idle, rfl, rfl, rfl, rfl, r, ev⟩)
  | descriptor r n v _ eq => exact .inl (by rw [eq, setRegister_job])
  | store r sp a v _ _ _ eq => exact .inl (by rw [eq, State.setSpace_job])

/-- Settles O4, by the rules of the step, the sequencer's turn and a write of `CMD`. -/
theorem stepRunsTheDecodedInstruction : Obligations.StepRunsTheDecodedInstruction := by
  intro s rest
  refine ⟨fun i he hb hi => ?_, fun i he hb hi => ?_, fun i w he hi => ?_, fun he hb => ?_, fun he hb => ?_⟩
  · exact (step_of_noEvent he).trans (sequencerTurn_of_decode hb hi)
  · exact (step_of_event he).trans (sequencerTurn_of_decode hb hi)
  · exact (step_of_host he).trans (writeCommand_of_decode _ hi)
  · exact (step_of_noEvent he).trans (sequencerTurn_of_stopped hb)
  · exact (step_of_event he).trans (sequencerTurn_of_stopped hb)

/-! ### Reset -/

theorem State.space_reset (sp : Space) : State.reset.space sp = [] := by cases sp <;> rfl

/-- Settles O38: no space lists a word, and no job runs. -/
theorem resetMeetsTheInvariant : Obligations.ResetMeetsTheInvariant where
  config := Nat.le_refl 1
  memory :=
    { canonical := fun sp => by rw [State.space_reset]; exact Memory.wf_nil
      exist := fun sp => by simp [State.space_reset] }
  control := JobInv.of_stopped (by decide) rfl (fun _ => rfl) fun h => absurd h (by decide)

/-- The descriptor of reset has no dimension and no word: RANK and WORD_LEN. -/
theorem violations_reset : violations (beginJob State.reset) = 0b0101 := by decide

/-- Settles O7: HASH starts a job, whose CHECK then finds the two violations. -/
theorem resetStateAndHashAfterReset : Obligations.ResetStateAndHashAfterReset := by
  refine ⟨by decide, rfl, rfl, rfl, rfl, rfl, rfl, rfl, rfl, rfl, rfl, fun sp a => ?_, _, ?_, by decide, rfl⟩
  · rw [State.space_reset, Memory.read?_nil]
  · have hhash : step { State.reset with events := [.host HostAction.hash] } = .next (beginJob State.reset) :=
      step_of_hash rfl
    have hcheck : step (beginJob State.reset) = .next (raiseContractError 0b0101 (beginJob State.reset)) := by
      rw [step_of_busy (i := .check) rfl rfl rfl, exec, execCheck, violations_reset]
      exact if_pos (by decide)
    rw [run_succ_of_next hhash, run_one, hcheck]
    rfl

/-! ### The host interface -/

/-- Settles O53, field by field on numbers. -/
theorem statusWordHasTheFieldsOfTheTable : Obligations.StatusWordHasTheFieldsOfTheTable := by
  intro s
  have hj := jobCode_lt s.job
  have hc := s.cause.isLt
  have hu := s.upc.isLt
  refine ⟨?_, ?_, ?_, statusWord_upc s, ?_⟩ <;> apply BitVec.eq_of_toNat_eq <;> rw [statusWord_field_toNat]
  · show _ = jobCode s.job % 2 ^ 2
    omega
  · show _ = 0
    omega
  · omega
  · show _ = 0
    omega

/-- Settles O54: the write stores into the descriptor, and the read returns what it stored. -/
theorem registersReadBackAsTheTableSays : Obligations.RegistersReadBackAsTheTableSays := by
  intro s n v rest hb hn he
  have hwrite := step_of_registerWrite_stopped he hb hn
  have hread := step_of_registerRead_stopped (setRegister_events n v { s with events := .host (.rdr n) :: rest })
    (by rwa [setRegister_job])
  refine ⟨_, (run_succ_of_next hwrite).trans ((run_one _).trans hread), rfl, ?_, fun sp => ?_, setRegister_job n v _,
    setRegister_cause n v _, setRegister_upc n v _, setRegister_idx n v _, registerValue_setRegister_ne v _,
    registerValue_setRegister_ne v _, registerValue_setRegister_ne v _, registerValue_setRegister_ne v _,
    registerValue_setRegister_ne v _⟩
  · cases n
    case cmd => exact absurd rfl hn
    case ndim => exact congrArg (· :: s.reads) (ndimWord_setRegister v s)
    all_goals rfl
  · cases sp <;> simp

/-- Settles O55: the two reads complete in every state; what `STATUS` shows while BUSY is the invariant's. -/
theorem statusAndIdxAreReadableAtAnyTime : Obligations.StatusAndIdxAreReadableAtAnyTime := by
  intro s rest I
  refine ⟨fun he => ⟨step_of_host he, fun hb => ⟨?_, ?_⟩⟩, fun he => step_of_host he,
    fun he => ⟨fun hb => ?_, fun hb => ?_⟩⟩
  · exact statusWord_low_of_busy hb (I.control.causeClear (by simp [hb]))
  · obtain ⟨i, -, hi⟩ := exists_encode_of_mem_codes _ (I.control.upcBusy hb)
    exact ⟨i, by rw [statusWord_upc, hi]⟩
  · exact step_of_registerRead_busy he hb (by decide) (by decide)
  · exact step_of_registerRead_stopped he hb

/-- Settles O58: all three writes are `writeSpace`, and the rest are the laws of a memory. -/
theorem hostWritesOneWordOfOneSpace : Obligations.HostWritesOneWordOfOneSpace := by
  intro s a n v rest sp act hb hact hn hx he
  have hwrite : hostAction act { s with events := rest } = writeSpace sp a v { s with events := rest } ∧
      s.frozenWords sp = n := by
    simp only [List.mem_cons, Prod.mk.injEq, List.not_mem_nil, or_false] at hact
    obtain ⟨rfl, rfl, rfl⟩ | ⟨rfl, rfl, rfl⟩ | ⟨rfl, rfl, rfl⟩ := hact <;> exact ⟨rfl, rfl⟩
  obtain ⟨haction, rfl⟩ := hwrite
  have hstep := (step_of_host he).trans (haction.trans (writeSpace_of_free v hb hn hx))
  refine ⟨_, hstep, ?_, fun b hne => ?_, ?_⟩
  · rw [State.space_setSpace_self, Memory.read?_write_self]
  · rw [State.space_setSpace_self, Memory.read?_write_ne _ v hne, State.space_withEvents]
  · rw [State.space_setSpace_self, State.setSpace_withEvents]

/-- Settles O56, by the rules of word reads and of register reads. -/
theorem hostReadsCompleteUnlessBusyForbidsThem : Obligations.HostReadsCompleteUnlessBusyForbidsThem := by
  intro s a n v rest
  refine ⟨fun sp act hact he => ⟨fun hb hbeyond => ?_, fun hb hx => ?_⟩,
    fun hn he => ⟨fun hb => ?_, fun hb => ?_⟩⟩
  · exact (step_of_host he).trans (hostRead_refused hact hb hbeyond)
  · obtain ⟨w, hstep, hw⟩ := hostRead_completes (s := { s with events := rest }) hact hb hx
    refine ⟨w, (step_of_host he).trans hstep, fun hs hf hv => ?_⟩
    rw [hw hs hf, State.load_of_read? ((congrArg (·.read? a) (State.space_withEvents s rest sp)).trans hv)]
  · exact step_of_registerRead_busy he hb (ne_of_mem_of_not_mem hn (by decide)) (ne_of_mem_of_not_mem hn (by decide))
  · rw [step_of_registerRead_stopped he hb]
    cases n
    case cmd | status | idx => exact absurd hn (by decide)
    all_goals rfl

/-- Settles O57, by the rules of register writes and of word writes. -/
theorem hostWritesAreRefusedWhileTheJobIsOpen : Obligations.HostWritesAreRefusedWhileTheJobIsOpen := by
  intro s a v rest
  refine ⟨fun n hb hn he => ?_, fun h he => ?_, fun h he => ?_, fun h he => ?_⟩
  · exact step_of_registerWrite_busy he hb hn
  all_goals exact (step_of_host he).trans (writeSpace_of_frozen v h)

end Sys2Proof.Machine
end

section
/-! PROOFS. The memory spaces (20_memory.md): the layout of the elements, the laws of a word, the packing of byte buffers;
then what a uop does where a word does not exist, and what it leaves alone. -/

namespace Sys2Proof.Machine

open Sys2Proof.Claims

/-! ### Layout, words and packing -/

theorem State.a2_inj (s : State) {g k g' k' : Nat} (hk : k < s.K) (hk' : k' < s.K) (h : s.a2 g k = s.a2 g' k') :
    g = g' ∧ k = k' :=
  ⟨(s.a2_div hk).symm.trans ((congrArg (· / s.K) h).trans (s.a2_div hk')),
    (s.a2_mod hk).symm.trans ((congrArg (· % s.K) h).trans (s.a2_mod hk'))⟩

theorem State.a3_inj (s : State) {g k l g' k' l' : Nat} (hl : l < s.L) (hl' : l' < s.L)
    (h : s.a3 g k l = s.a3 g' k' l') : s.a2 g k = s.a2 g' k' ∧ l = l' :=
  ⟨(s.a3_div hl).symm.trans ((congrArg (· / s.L) h).trans (s.a3_div hl')),
    (s.a3_mod hl).symm.trans ((congrArg (· % s.L) h).trans (s.a3_mod hl'))⟩

/-- Settles O50: the quotient and the remainder by `L`, then by `K`, give the element back. -/
theorem layoutIsInjective : Obligations.LayoutIsInjective := by
  intro s g k l g' k' l' hk hk'
  refine ⟨s.a2_inj hk hk', fun hl hl' h => ?_⟩
  obtain ⟨h2, hll⟩ := s.a3_inj hl hl' h
  obtain ⟨hg, hkk⟩ := s.a2_inj hk hk' h2
  exact ⟨hg, hkk, hll⟩

/-- Settles O51, by the laws of a memory. -/
theorem wordsReadBackAsWritten : Obligations.WordsReadBackAsWritten := fun m _ a _ v hm =>
  ⟨m.read?_write_self a v, m.read?_write_ne v, Memory.wf_write hm a v, Memory.ext hm⟩

/-- The little-endian value of the four bytes from byte `4*j` on (R47). -/
def fourBytes (bs : List Byte) (j : Nat) : Nat :=
  (bs.getD (4 * j) 0).toNat + 2 ^ 8 * (bs.getD (4 * j + 1) 0).toNat + 2 ^ 16 * (bs.getD (4 * j + 2) 0).toNat +
    2 ^ 24 * (bs.getD (4 * j + 3) 0).toNat

theorem fourBytes_lt (bs : List Byte) (j : Nat) : fourBytes bs j < 2 ^ 32 := by
  have h0 := (bs.getD (4 * j) 0).isLt
  have h1 := (bs.getD (4 * j + 1) 0).isLt
  have h2 := (bs.getD (4 * j + 2) 0).isLt
  have h3 := (bs.getD (4 * j + 3) 0).isLt
  simp only [fourBytes]
  omega

theorem fourBytes_succ (b0 b1 b2 b3 : Byte) (bs : List Byte) (j : Nat) :
    fourBytes (b0 :: b1 :: b2 :: b3 :: bs) (j + 1) = fourBytes bs j := rfl

theorem packLittleEndian_cons (b0 b1 b2 b3 : Byte) (bs : List Byte) :
    packLittleEndian (b0 :: b1 :: b2 :: b3 :: bs) =
      (packLittleEndian bs).map (BitVec.ofNat 32 (fourBytes (b0 :: b1 :: b2 :: b3 :: bs) 0) :: ·) := rfl

/-- What packing answers for every buffer: nothing, or a quarter as many words, each from its own four bytes. -/
theorem packLittleEndian_spec (bs : List Byte) :
    (bs.length % 4 ≠ 0 ∧ packLittleEndian bs = none) ∨
    ∃ ws, packLittleEndian bs = some ws ∧ 4 * ws.length = bs.length ∧
      ∀ j, j < ws.length → (ws.getD j 0).toNat = fourBytes bs j := by
  induction bs using packLittleEndian.induct with
  | case1 => exact .inr ⟨[], rfl, rfl, fun j hj => absurd hj (Nat.not_lt_zero j)⟩
  | case2 b0 b1 b2 b3 bs ih =>
    rw [packLittleEndian_cons]
    obtain ⟨hlen, hnone⟩ | ⟨ws, hsome, hlen, hws⟩ := ih
    · exact .inl ⟨by simp only [List.length_cons]; omega, by rw [hnone]; rfl⟩
    · refine .inr ⟨_, by rw [hsome]; rfl, by simp only [List.length_cons]; omega, fun j hj => ?_⟩
      cases j with
      | zero => exact Nat.mod_eq_of_lt (fourBytes_lt _ 0)
      | succ j => rw [fourBytes_succ, ← hws j (Nat.lt_of_succ_lt_succ hj)]; rfl
  | case3 bs hnil hfour =>
    refine .inl ?_
    match bs with
    | [] => exact absurd rfl hnil
    | [_] | [_, _] | [_, _, _] => exact ⟨by simp, rfl⟩
    | b0 :: b1 :: b2 :: b3 :: rest => exact absurd rfl (hfour b0 b1 b2 b3 rest)

/-- Settles O52, by the two answers that packing can give. -/
theorem packingIsLittleEndian : Obligations.PackingIsLittleEndian := by
  intro bs
  obtain ⟨hlen, hnone⟩ | ⟨ws, hsome, hlen, hws⟩ := packLittleEndian_spec bs
  · exact ⟨fun _ => hnone, fun h => absurd h hlen⟩
  · exact ⟨fun h => absurd (hlen ▸ Nat.mul_mod_right 4 ws.length) h, fun _ => ⟨ws, hsome, hlen, hws⟩⟩

/-! ### Words that do not exist (R59) -/

theorem allExist3_iff {s : State} {sp : Space} : AllExist3 s sp ↔ s.fits sp s.words3 = true :=
  (s.fits_words3_iff sp).symm

theorem allExist2_iff {s : State} {sp : Space} : AllExist2 s sp ↔ s.fits sp s.words2 = true :=
  (s.fits_words2_iff sp).symm

theorem columnExists_iff {s : State} {l : Nat} : ColumnExists s l ↔ s.fits .work (s.reach l) = true :=
  (s.fits_reach_iff l).symm

theorem seedsExist_iff {s : State} : SeedsExist s ↔ s.fits .seed s.seedWords = true :=
  s.fits_seedWords_iff.symm

/-- A step that lacks a word of a listed space faults at such a space. -/
theorem State.needing_stops {s : State} {need : List (Space × Nat)} (t : State)
    (h : ¬ ∀ c ∈ need, s.fits c.1 c.2 = true) :
    ∃ c ∈ need, s.needing need t = .fault (.beyondCapacity c.1) ∧ ¬ s.fits c.1 c.2 = true := by
  obtain ⟨-, hall⟩ | ⟨c, hc, hshort, hfault⟩ := s.needing_cases need t
  · exact absurd hall h
  · exact ⟨c, hc, hfault, by simp [hshort]⟩

theorem State.needing_one_stops {s : State} {sp : Space} {n : Nat} (t : State) (h : ¬ s.fits sp n = true) :
    s.needing [(sp, n)] t = .fault (.beyondCapacity sp) := by
  obtain ⟨c, hc, hfault, -⟩ := s.needing_stops (need := [(sp, n)]) t fun hall => h (hall _ List.mem_cons_self)
  rwa [List.mem_singleton.1 hc] at hfault

theorem State.needing_two_stops {s : State} {sp sq : Space} {m n : Nat} (t : State)
    (h : ¬ (s.fits sp m = true ∧ s.fits sq n = true)) :
    s.needing [(sp, m), (sq, n)] t = .fault (.beyondCapacity sp) ∧ ¬ s.fits sp m = true ∨
    s.needing [(sp, m), (sq, n)] t = .fault (.beyondCapacity sq) ∧ ¬ s.fits sq n = true := by
  simpa only [List.exists_mem_cons_iff, List.not_mem_nil, false_and, exists_false, or_false] using
    s.needing_stops (need := [(sp, m), (sq, n)]) t (by simpa using h)

theorem State.needing_three_stops {s : State} {sp sq sr : Space} {l m n : Nat} (t : State)
    (h : ¬ (s.fits sp l = true ∧ s.fits sq m = true ∧ s.fits sr n = true)) :
    s.needing [(sp, l), (sq, m), (sr, n)] t = .fault (.beyondCapacity sp) ∧ ¬ s.fits sp l = true ∨
    s.needing [(sp, l), (sq, m), (sr, n)] t = .fault (.beyondCapacity sq) ∧ ¬ s.fits sq m = true ∨
    s.needing [(sp, l), (sq, m), (sr, n)] t = .fault (.beyondCapacity sr) ∧ ¬ s.fits sr n = true := by
  simpa only [List.exists_mem_cons_iff, List.not_mem_nil, false_and, exists_false, or_false] using
    s.needing_stops (need := [(sp, l), (sq, m), (sr, n)]) t (by simpa using h)

theorem exec_hinit_unfolded {s : State} (h0 : s.cfg.firstWordFold = false) : exec .hinit s = initUnfolded s :=
  if_neg (by simp [h0])

theorem exec_hinit_folded {s : State} (h0 : s.cfg.firstWordFold = true) : exec .hinit s = initFolded s :=
  if_pos h0

/-- Settles O33: each uop asks first for the words it needs, and the test fails exactly where one does not exist. -/
theorem missingWordsStopEveryArrayUop : Obligations.MissingWordsStopEveryArrayUop := by
  intro s
  simp only [allExist3_iff, allExist2_iff, columnExists_iff, seedsExist_iff]
  refine ⟨fun h i hi => ?_, fun h i hi => ?_, s.needing_two_stops _, fun h0 => ?_, fun h0 => ?_,
    s.needing_two_stops _, s.needing_two_stops _⟩
  · simp only [List.mem_cons, List.not_mem_nil, or_false] at hi
    obtain rfl | rfl | rfl := hi <;> exact s.needing_one_stops _ h
  · simp only [List.mem_cons, List.not_mem_nil, or_false] at hi
    obtain rfl | rfl | rfl | rfl | rfl | rfl | rfl | rfl | rfl := hi <;> exact s.needing_one_stops _ h
  · rw [exec_hinit_unfolded h0]; exact s.needing_three_stops _
  · rw [exec_hinit_folded h0]; exact s.needing_two_stops _

/-! ### Spaces that a uop does not touch (R54) -/

/-- The spaces that an instruction reads or writes, by the instruction where `touched` goes by its code. -/
def spacesOf : Instr → List Space
  | .copy => [.key, .work]
  | .kmul1 | .krot | .kmul2 => [.work]
  | .hinit => [.work, .seed, .h1]
  | .hxor => [.h1, .work]
  | .hrot | .hmul5 | .hadd | .hlen | .fsx16a | .fmula | .fsx13 | .fmulb | .fsx16b => [.h1]
  | .hout => [.h1, .out]
  | .hash | .check | .endJob => []

theorem touched_of_encode {i : Instr} {u : Byte} (h : encode i = .uop u) : touched u = spacesOf i := by
  cases i <;> cases h <;> rfl

/-! The registers, and all that depends on them and the capacities only, are no part of a space. -/

section
variable (s : State) (sp : Space) (m : Memory)

@[simp] theorem State.setSpace_S : (s.setSpace sp m).S = s.S := by cases sp <;> rfl
@[simp] theorem State.setSpace_K : (s.setSpace sp m).K = s.K := by cases sp <;> rfl
@[simp] theorem State.setSpace_L : (s.setSpace sp m).L = s.L := by cases sp <;> rfl
@[simp] theorem State.setSpace_a1 : (s.setSpace sp m).a1 = s.a1 := rfl
@[simp] theorem State.setSpace_a2 : (s.setSpace sp m).a2 = s.a2 := by cases sp <;> rfl
@[simp] theorem State.setSpace_a3 : (s.setSpace sp m).a3 = s.a3 := by cases sp <;> rfl
@[simp] theorem State.setSpace_idx2 : (s.setSpace sp m).idx2 = s.idx2 := by cases sp <;> rfl
@[simp] theorem State.setSpace_idx3 : (s.setSpace sp m).idx3 = s.idx3 := by cases sp <;> rfl
@[simp] theorem State.setSpace_words2 : (s.setSpace sp m).words2 = s.words2 := by cases sp <;> rfl
@[simp] theorem State.setSpace_words3 : (s.setSpace sp m).words3 = s.words3 := by cases sp <;> rfl
@[simp] theorem State.setSpace_seedWords : (s.setSpace sp m).seedWords = s.seedWords := by cases sp <;> rfl
@[simp] theorem State.setSpace_reach : (s.setSpace sp m).reach = s.reach := by cases sp <;> rfl
@[simp] theorem State.setSpace_fits : (s.setSpace sp m).fits = s.fits := by cases sp <;> rfl
@[simp] theorem violations_setSpace : violations (s.setSpace sp m) = violations s := by cases sp <;> rfl

theorem State.goto_setSpace (u : Byte) : (s.setSpace sp m).goto u = (s.goto u).setSpace sp m := by cases sp <;> rfl

theorem raiseContractError_setSpace (c : BitVec 4) :
    raiseContractError c (s.setSpace sp m) = (raiseContractError c s).setSpace sp m := by cases sp <;> rfl

theorem State.setSpace_withIdxUpc (i : Word) (u : Byte) :
    { s.setSpace sp m with idx := i, upc := u } = ({ s with idx := i, upc := u } : State).setSpace sp m := by
  cases sp <;> rfl

theorem execEnd_setSpace : execEnd (s.setSpace sp m) = mapNext (·.setSpace sp m) (execEnd s) := by cases sp <;> rfl

theorem execCheck_setSpace : execCheck (s.setSpace sp m) = mapNext (·.setSpace sp m) (execCheck s) := by
  unfold execCheck
  rw [violations_setSpace, raiseContractError_setSpace, State.goto_setSpace]
  split <;> rfl

/-- The capacity test does not read a space. -/
theorem State.needing_setSpace (need : List (Space × Nat)) (t : State) :
    (s.setSpace sp m).needing need (t.setSpace sp m) = mapNext (·.setSpace sp m) (s.needing need t) := by
  unfold State.needing State.shortage
  rw [State.setSpace_fits]
  split <;> rfl

end

section
variable {s : State} {sp : Space} (m : Memory)

theorem State.load_setSpace_ne {sq : Space} (h : sq ≠ sp) : (s.setSpace sp m).load sq = s.load sq := by
  funext a
  rw [State.load, s.space_setSpace_ne m h, State.setSpace_draws, State.load]

theorem State.setSpace_comm {dst : Space} (n : Memory) (h : dst ≠ sp) :
    (s.setSpace sp m).setSpace dst n = (s.setSpace dst n).setSpace sp m := by
  cases sp <;> cases dst <;> first | rfl | exact absurd rfl h

theorem State.setSpace_withDraws (d : Nat) :
    { s.setSpace sp m with draws := d } = ({ s with draws := d } : State).setSpace sp m := by cases sp <;> rfl

/-- A step over Idx2 leaves every space but its destination, whatever that space holds. -/
theorem State.forall2_setSpace {dst : Space} (h : dst ≠ sp) (f : Nat → Nat → Word) :
    (s.setSpace sp m).forall2 dst f = (s.forall2 dst f).setSpace sp m := by
  simp only [State.forall2, State.setSpace_idx2, State.setSpace_a2, State.setSpace_draws, s.space_setSpace_ne m h,
    State.setSpace_comm m _ h, State.setSpace_withDraws]

theorem State.forall3_setSpace {dst : Space} (h : dst ≠ sp) (f : Nat → Nat → Nat → Word) :
    (s.setSpace sp m).forall3 dst f = (s.forall3 dst f).setSpace sp m := by
  simp only [State.forall3, State.setSpace_idx3, State.setSpace_a3, State.setSpace_draws, s.space_setSpace_ne m h,
    State.setSpace_comm m _ h, State.setSpace_withDraws]

theorem mapWork_setSpace (op : Word → Word) (u : Byte) (h : .work ≠ sp) :
    mapWork op u (s.setSpace sp m) = mapNext (·.setSpace sp m) (mapWork op u s) := by
  simp only [mapWork, State.setSpace_words3, State.setSpace_a3, State.load_setSpace_ne m h, State.forall3_setSpace m h,
    State.goto_setSpace, State.needing_setSpace]

theorem mapH1_setSpace (op : Word → Word) (u : Byte) (h : .h1 ≠ sp) :
    mapH1 op u (s.setSpace sp m) = mapNext (·.setSpace sp m) (mapH1 op u s) := by
  simp only [mapH1, State.setSpace_words2, State.setSpace_a2, State.load_setSpace_ne m h, State.forall2_setSpace m h,
    State.goto_setSpace, State.needing_setSpace]

theorem execCopy_setSpace (hkey : .key ≠ sp) (hwork : .work ≠ sp) :
    execCopy (s.setSpace sp m) = mapNext (·.setSpace sp m) (execCopy s) := by
  simp only [execCopy, State.setSpace_words3, State.setSpace_a3, State.load_setSpace_ne m hkey,
    State.forall3_setSpace m hwork, State.goto_setSpace, State.needing_setSpace]

theorem initUnfolded_setSpace (hwork : .work ≠ sp) (hseed : .seed ≠ sp) (hh1 : .h1 ≠ sp) :
    initUnfolded (s.setSpace sp m) = mapNext (·.setSpace sp m) (initUnfolded s) := by
  simp only [initUnfolded, State.setSpace_words2, State.setSpace_seedWords, State.setSpace_reach, State.setSpace_a1,
    State.setSpace_a3, State.setSpace_L, State.load_setSpace_ne m hwork, State.load_setSpace_ne m hseed,
    State.forall2_setSpace m hh1, State.setSpace_withIdxUpc, State.needing_setSpace]

theorem initFolded_setSpace (hseed : .seed ≠ sp) (hh1 : .h1 ≠ sp) :
    initFolded (s.setSpace sp m) = mapNext (·.setSpace sp m) (initFolded s) := by
  simp only [initFolded, State.setSpace_words2, State.setSpace_seedWords, State.setSpace_a1,
    State.load_setSpace_ne m hseed, State.forall2_setSpace m hh1, State.setSpace_withIdxUpc, State.needing_setSpace]

theorem execHinit_setSpace (hwork : .work ≠ sp) (hseed : .seed ≠ sp) (hh1 : .h1 ≠ sp) :
    execHinit (s.setSpace sp m) = mapNext (·.setSpace sp m) (execHinit s) := by
  rw [execHinit, State.setSpace_cfg, execHinit]
  split
  · exact initFolded_setSpace m hseed hh1
  · exact initUnfolded_setSpace m hwork hseed hh1

theorem execHxor_setSpace (hwork : .work ≠ sp) (hh1 : .h1 ≠ sp) :
    execHxor (s.setSpace sp m) = mapNext (·.setSpace sp m) (execHxor s) := by
  simp only [execHxor, State.setSpace_words2, State.setSpace_reach, State.setSpace_idx, State.setSpace_a2,
    State.setSpace_a3, State.load_setSpace_ne m hwork, State.load_setSpace_ne m hh1, State.forall2_setSpace m hh1,
    State.goto_setSpace, State.needing_setSpace]

theorem execHadd_setSpace (hh1 : .h1 ≠ sp) :
    execHadd (s.setSpace sp m) = mapNext (·.setSpace sp m) (execHadd s) := by
  simp only [execHadd, State.setSpace_words2, State.setSpace_idx, State.setSpace_a2, State.setSpace_L,
    State.load_setSpace_ne m hh1, State.forall2_setSpace m hh1, State.setSpace_withIdxUpc, State.needing_setSpace]

theorem execHlen_setSpace (hh1 : .h1 ≠ sp) :
    execHlen (s.setSpace sp m) = mapNext (·.setSpace sp m) (execHlen s) := by
  rw [execHlen, State.setSpace_L, mapH1_setSpace m _ _ hh1, execHlen]

theorem execHout_setSpace (hh1 : .h1 ≠ sp) (hout : .out ≠ sp) :
    execHout (s.setSpace sp m) = mapNext (·.setSpace sp m) (execHout s) := by
  simp only [execHout, State.setSpace_words2, State.setSpace_a2, State.load_setSpace_ne m hh1,
    State.forall2_setSpace m hout, State.goto_setSpace, State.needing_setSpace]

/-- A uop does the same whatever a space holds that R54 does not list for it. -/
theorem exec_setSpace {i : Instr} (hi : i.isUop = true) (h : ∀ sq ∈ spacesOf i, sq ≠ sp) :
    exec i (s.setSpace sp m) = mapNext (·.setSpace sp m) (exec i s) := by
  cases i
  case hash => exact absurd hi (by decide)
  case check => exact execCheck_setSpace s sp m
  case copy => exact execCopy_setSpace m (h .key (by decide)) (h .work (by decide))
  case kmul1 | krot | kmul2 =>
    simp only [exec, execKmul1, execKrot, execKmul2]
    exact mapWork_setSpace m _ _ (h .work (by decide))
  case hinit => exact execHinit_setSpace m (h .work (by decide)) (h .seed (by decide)) (h .h1 (by decide))
  case hxor => exact execHxor_setSpace m (h .work (by decide)) (h .h1 (by decide))
  case hadd => exact execHadd_setSpace m (h .h1 (by decide))
  case hlen => exact execHlen_setSpace m (h .h1 (by decide))
  case hrot | hmul5 | fsx16a | fmula | fsx13 | fmulb | fsx16b =>
    simp only [exec, execHrot, execHmul5, execFsx16a, execFmula, execFsx13, execFmulb, execFsx16b]
    exact mapH1_setSpace m _ _ (h .h1 (by decide))
  case hout => exact execHout_setSpace m (h .h1 (by decide)) (h .out (by decide))
  case endJob => exact execEnd_setSpace s sp m

theorem sequencerTurn_setSpace (h : ∀ sq ∈ touched s.upc, sq ≠ sp) :
    sequencerTurn (s.setSpace sp m) = mapNext (·.setSpace sp m) (sequencerTurn s) := by
  unfold sequencerTurn
  rw [State.setSpace_job, State.setSpace_upc]
  split
  · split
    · rename_i i hi
      have hcode := (decodeUop_ok_iff _ _).1 hi
      exact exec_setSpace m (isUop_of_encode hcode) (touched_of_encode hcode ▸ h)
    · rfl
    · rfl
  · rfl

end

/-- Settles O34: with no event queued the step is the sequencer's turn, which touches only the listed spaces. -/
theorem unlistedSpacesAreNotTouched : Obligations.UnlistedSpacesAreNotTouched := by
  intro s sp m he hsp
  rw [step_of_noEvent (by rwa [State.setSpace_events]), step_of_noEvent he]
  exact sequencerTurn_setSpace m fun sq hsq heq => hsp (heq ▸ hsq)

/-- Settles O35, by the frame of the uops. -/
theorem sequencerNeverWritesInputsOrDescriptor : Obligations.SequencerNeverWritesInputsOrDescriptor := by
  intro s t he h
  rw [step_of_noEvent he] at h
  obtain ⟨-, rfl⟩ | ⟨-, i, hi, hexec⟩ := sequencerTurn_eq_next h
  · exact ⟨rfl, rfl, rfl, rfl, rfl, rfl, rfl, rfl, rfl, rfl⟩
  · rw [frame_of_exec (isUop_of_encode hi) hexec]
    exact ⟨rfl, rfl, rfl, rfl, rfl, rfl, rfl, rfl, rfl, rfl⟩

/-! ### Reading the output -/

/-- A host read of a word of `OUT` that holds a value and is not frozen. -/
theorem readOutput_of_read? {s : State} {a : Nat} {v : Word} (hb : s.job ≠ .busy) (hfree : s.frozen.out ≤ a)
    (hx : s.cfg.holds .out a = true) (hv : s.out.read? a = some v) : readOutput a s = .next (deliverFree v s) := by
  rw [readOutput_of_readable (fun h => absurd h hb) hx, if_neg (State.not_isFrozen hb hfree),
    State.load_of_read? (sp := .out) hv]

/-- Settles O59: the `STATUS` read frees the words of the job, so the read of `OUT` returns the word. -/
theorem outputIsReadableOnceTheEndIsSeen : Obligations.OutputIsReadableOnceTheEndIsSeen := by
  intro s a v rest hb hv hx he
  have hstatus := step_of_registerRead_stopped he hb
  rw [if_pos rfl] at hstatus
  have houtput :
      step { s with events := .host (.rdo a) :: rest, reads := statusWord s :: s.reads, frozen := ⟨0, 0, 0⟩ } =
      .next (deliverFree v { s with events := rest, reads := statusWord s :: s.reads, frozen := ⟨0, 0, 0⟩ }) :=
    (step_of_host (a := .rdo a) (rest := rest) rfl).trans (readOutput_of_read? hb (Nat.zero_le a) hx hv)
  refine ⟨_, (run_succ_of_next hstatus).trans ((run_one _).trans houtput), rfl, rfl, fun sp => ?_, rfl⟩
  cases sp <;> rfl

end Sys2Proof.Machine
end

section
/-! PROOFS. Encoding (30_encoding.md): the command word and the uop codes that decode, what a reserved code of either format
does, and one poll of WAIT. -/

namespace Sys2Proof.Machine

/-! ### Command words -/

/-- R61: a command word is its two fields. -/
theorem commandWord_fields (w : Word) : commandWord (commandZero w) (commandOpc w) = w :=
  BitVec.extractLsb'_append_extractLsb'_eq_extractLsb' rfl |>.trans BitVec.extractLsb'_eq_self

theorem decodeCommand_hash : decodeCommand 0x00000001 = .ok .hash := by decide

/-- R63, R66: every word but `0x00000001` is reserved. -/
theorem decodeCommand_of_ne {w : Word} (h : w ≠ 0x00000001) : decodeCommand w = .error (.reservedCommand w) :=
  if_neg fun ⟨hzero, hopc⟩ => h (by rw [← commandWord_fields w, hzero, hopc]; rfl)

theorem decodeCommand_ok_iff (w : Word) (i : Instr) : decodeCommand w = .ok i ↔ encode i = .command w := by
  by_cases h : w = 0x00000001
  · subst h
    rw [decodeCommand_hash]
    cases i <;> decide
  · rw [decodeCommand_of_ne h]
    refine ⟨nofun, fun hi => ?_⟩
    cases i
    case hash => exact absurd (Code.command.inj hi).symm h
    all_goals cases hi

/-- Settles O1, format by format. -/
theorem decodeAcceptsExactlyTheEncodings : Obligations.DecodeAcceptsExactlyTheEncodings := by
  intro c i
  rw [eq_comm (a := c)]
  cases c with
  | command w => exact decodeCommand_ok_iff w i
  | uop b => exact decodeUop_ok_iff b i

/-- Settles O2, each word by evaluation. -/
theorem opcodeMapWordsDecode : Obligations.OpcodeMapWordsDecode := by
  unfold Obligations.OpcodeMapWordsDecode
  decide

/-! ### Reserved codes -/

/-- R62: a uop code is its two fields. -/
theorem uopCode_fields (b : Byte) : uopCode (uopGroup b) (uopFunction b) = b :=
  BitVec.extractLsb'_append_extractLsb'_eq_extractLsb' rfl |>.trans BitVec.extractLsb'_eq_self

/-- R67: a code that decodes to nothing is reserved, except that `0x00` is no uop at all (R64). -/
theorem decodeUop_error {b : Byte} {e : DecodeError} (h : decodeUop b = .error e) :
    e = if b = 0x00 then .notAUop else .reservedUop b := by
  by_cases hb : b = 0x00
  · subst hb
    exact (Except.error.inj h).symm
  · rw [if_neg hb]
    unfold decodeUop at h
    split at h
    case h_1 hgroup hfn =>
      refine absurd ?_ hb
      rw [← uopCode_fields b, BitVec.eq_of_toNat_eq (y := 0#4) hgroup, BitVec.eq_of_toNat_eq (y := 0#4) hfn]
      rfl
    case h_20 => exact (Except.error.inj h).symm
    all_goals cases h

/-- A running job whose `UPC` holds none of the eighteen codes faults (R67; for `0x00`: log 16). -/
theorem sequencerTurn_of_noUop {s : State} (hb : s.job = .busy) (h : ∀ i, encode i ≠ .uop s.upc) :
    sequencerTurn s = .fault (if s.upc = 0x00 then .noUopWhileBusy else .reservedUopCode s.upc) := by
  rw [sequencerTurn, if_pos hb]
  cases hd : decodeUop s.upc with
  | ok i => exact absurd ((decodeUop_ok_iff _ _).1 hd) (h i)
  | error e =>
    obtain rfl := decodeUop_error hd
    split_ifs <;> rfl

/-- Settles O3, by what the two decoders answer for a reserved code. -/
theorem reservedCodesAreStopped : Obligations.ReservedCodesAreStopped := by
  refine ⟨fun s w rest hw he => ?_, fun s he hb h => ?_⟩
  · rw [step_of_host he]
    simp only [hostAction, writeRegister, writeCommand, decodeCommand_of_ne hw]
  · exact (step_of_noEvent he).trans (sequencerTurn_of_noUop hb h)

/-! ### WAIT -/

/-- One poll: a `STATUS` read, and while it shows BUSY a slot and the next poll before the rest of the queue (log 6). -/
theorem step_of_wait {s : State} {rest : List Event} (he : s.events = .host .wait :: rest) :
    step s = .next { readStatus s with
      events := if s.job = .busy then .slot :: .host .wait :: rest else rest } := by
  rw [step_of_host he]
  by_cases hb : s.job = .busy
  · rw [if_pos hb]; exact congrArg Host.Outcome.next (if_pos hb)
  · rw [if_neg hb]; exact congrArg Host.Outcome.next (if_neg hb)

/-- Settles O60: the poll reads `STATUS`, and the queue after it goes by whether the job runs. -/
theorem waitPollsUntilTheJobEnds : Obligations.WaitPollsUntilTheJobEnds := fun _ _ he =>
  ⟨_, step_of_wait he, rfl, rfl, fun hb => if_pos hb, fun hb => ⟨if_neg hb, if_neg hb⟩⟩

end Sys2Proof.Machine
end

section
/-! PROOFS. A job that passes CHECK performs `JOB(L)` (30_encoding.md R71, 45_job_function.md R160, R162). Where control goes
depends on `UPC` and `IDX` alone, so the proof is in two parts: `JOB(L)` is a path of control, by its stretches; and from a
state of a running job the sequencer performs every path that starts there. -/

namespace Sys2Proof.Machine

/-! ### A list of uops performed by the sequencer -/

/-- From `s` the sequencer performs the listed uops in turn, each because the job runs, nothing is queued and `UPC` holds its
code, and it then stands in `t`. -/
inductive Performs : List Instr → State → State → Prop
  | nil (s : State) : Performs [] s s
  | cons {i : Instr} {is : List Instr} {s t u : State} (quiet : s.events = []) (busy : s.job = .busy)
      (code : encode i = .uop s.upc) (run : exec i s = .next t) (rest : Performs is t u) : Performs (i :: is) s u

theorem Performs.append {is js : List Instr} {s t u : State} (h : Performs is s t) (h' : Performs js t u) :
    Performs (is ++ js) s u := by
  induction h with
  | nil => exact h'
  | cons quiet busy code run _ ih => exact .cons quiet busy code run (ih h')

theorem Performs.execAll_eq {is : List Instr} {s t : State} (h : Performs is s t) : execAll is s = .next t := by
  induction h with
  | nil => rfl
  | cons _ _ _ run _ ih => rw [execAll_cons, run, andThen_next, ih]

theorem Performs.runSteps_eq {is : List Instr} {s t : State} (h : Performs is s t) :
    runSteps is.length s = .next t := by
  induction h with
  | nil => rfl
  | cons quiet busy code run _ ih =>
    rw [List.length_cons, run_succ_of_next ((step_of_busy quiet busy code).trans run), ih]

/-- Before each of its steps the job runs, and `UPC` holds the code of the uop performed. -/
theorem Performs.uop_at {is : List Instr} {s t : State} (h : Performs is s t) (n : Nat) (hn : n < is.length) :
    ∃ u, runSteps n s = .next u ∧ u.job = .busy ∧ is[n]? = (decodeUop u.upc).toOption := by
  induction h generalizing n with
  | nil => exact absurd hn (Nat.not_lt_zero n)
  | @cons i _ s _ _ quiet busy code run _ ih =>
    cases n with
    | zero => exact ⟨s, rfl, busy, by rw [(decodeUop_ok_iff _ _).2 code]; rfl⟩
    | succ n =>
      rw [run_succ_of_next ((step_of_busy quiet busy code).trans run)]
      exact ih n (Nat.lt_of_succ_lt_succ hn)

/-! ### One uop of a job with a legal descriptor -/

/-- R59, R173: under a legal descriptor every uop completes; HXOR needs its word index below `L`. -/
theorem exec_completes_of_legal {s : State} (legal : LegalDescriptor s) {i : Instr} (hi : i.isUop = true)
    (hidx : i = .hxor → s.idx.toNat < s.L) : ∃ t, exec i s = .next t := by
  have hv : violations s = 0 := (violations_eq_zero_iff s).2 legal
  have hseed := State.fits_mono legal.capSeed s.seedWords_le
  cases i
  case hash => cases hi
  case check => exact ⟨_, if_neg (not_not.2 hv)⟩
  case copy => exact ⟨_, State.needing_of_fits (by simpa using ⟨legal.capKey, legal.capWork⟩)⟩
  case kmul1 | krot | kmul2 =>
    simp only [exec, execKmul1, execKrot, execKmul2]
    exact ⟨_, mapWork_of_fits legal.capWork⟩
  case hinit =>
    have hwork := State.fits_mono legal.capWork (s.reach_le_words3 (L_pos_of_legal hv))
    cases h0 : s.cfg.firstWordFold with
    | false =>
      rw [exec_hinit_unfolded h0]
      exact ⟨_, State.needing_of_fits (by simpa using ⟨hwork, hseed, legal.capH1⟩)⟩
    | true =>
      rw [exec_hinit_folded h0]
      exact ⟨_, State.needing_of_fits (by simpa using ⟨hseed, legal.capH1⟩)⟩
  case hxor =>
    have hwork := State.fits_mono legal.capWork (s.reach_le_words3 (hidx rfl))
    exact ⟨_, State.needing_of_fits (by simpa using ⟨hwork, legal.capH1⟩)⟩
  case hadd => exact ⟨_, State.needing_of_fits (List.forall_mem_singleton.2 legal.capH1)⟩
  case hout => exact ⟨_, State.needing_of_fits (by simpa using ⟨legal.capH1, legal.capOut⟩)⟩
  case endJob => exact ⟨_, rfl⟩
  case hrot | hmul5 | hlen | fsx16a | fmula | fsx13 | fmulb | fsx16b =>
    simp only [exec, execHrot, execHmul5, execHlen, execFsx16a, execFmula, execFsx13, execFmulb, execFsx16b]
    exact ⟨_, mapH1_of_fits legal.capH1⟩

/-- Where control stands in a job: the code in `UPC`, and `IDX` as a number. -/
abbrev Control := Byte × Nat

/-- R161: at word index `j` the job enters another pass of the fold, or leaves the fold. -/
def foldEntry (l j : Nat) : Control := (if j < l then 0x30 else 0x40, j)

/-- The table of R160 by the uop, with what becomes of `IDX`: where control goes from word index `j`. (HASH is no uop.) -/
def controlAfter (l j : Nat) : Instr → Control
  | .hash | .endJob => (0x00, j)
  | .check => (0x02, j)
  | .copy => (0x10, j)
  | .kmul1 => (0x11, j)
  | .krot => (0x12, j)
  | .kmul2 => (0x20, j)
  | .hinit => foldEntry l 1
  | .hxor => (0x31, j)
  | .hrot => (0x32, j)
  | .hmul5 => (0x33, j)
  | .hadd => foldEntry l (j + 1)
  | .hlen => (0x50, j)
  | .fsx16a => (0x51, j)
  | .fmula => (0x52, j)
  | .fsx13 => (0x53, j)
  | .fmulb => (0x54, j)
  | .fsx16b => (0x60, j)
  | .hout => (0x70, j)

/-- A uop that does not trap transfers control as the table says; below `L` the count of HADD does not wrap. -/
theorem control_of_exec {s t : State} {i : Instr} (hi : i.isUop = true) (h0 : s.cfg.firstWordFold = false)
    (hv : violations s = 0) (hidx : i = .hadd → s.idx.toNat < s.L) (h : exec i s = .next t) :
    (t.upc, t.idx.toNat) = controlAfter s.L s.idx.toNat i := by
  have e := effect_of_exec h
  cases i
  case hash => cases hi
  case check =>
    obtain ⟨hne, -⟩ | ⟨-, rfl⟩ := e
    · exact absurd hv hne
    · rfl
  case hinit =>
    obtain ⟨-, ⟨-, rfl⟩ | ⟨h1, -⟩⟩ := e
    · rfl
    · exact absurd (h0.symm.trans h1) (by decide)
  case hadd =>
    obtain ⟨rfl, -⟩ := e
    have hL : s.L < 2 ^ 32 := s.dimL.isLt
    exact Prod.ext rfl (BitVec.toNat_add_of_lt (show s.idx.toNat + 1 < 2 ^ 32 by have := hidx rfl; omega))
  case endJob => cases e; rfl
  all_goals obtain ⟨rfl, -⟩ := e; rfl

/-- A job of this hardware runs undisturbed with a legal descriptor and `L` = `l`, and control stands at `c`. -/
structure StandsAt (l : Nat) (c : Control) (s : State) : Prop where
  running : Running s
  unfolded : s.cfg.firstWordFold = false
  len : s.L = l
  control : (s.upc, s.idx.toNat) = c

/-- A uop before END completes and leaves the job running where the table says. -/
theorem StandsAt.completes {l : Nat} {c : Control} {s : State} (h : StandsAt l c s) {i : Instr} (hi : encode i = .uop c.1)
    (hend : i ≠ .endJob) (hidx : i = .hxor ∨ i = .hadd → c.2 < l) :
    ∃ t, exec i s = .next t ∧ StandsAt l (controlAfter l c.2 i) t := by
  obtain ⟨r, h0, rfl, rfl⟩ := h
  have huop := isUop_of_encode hi
  have hv : violations s = 0 := (violations_eq_zero_iff s).2 r.legal
  obtain ⟨t, ht⟩ := exec_completes_of_legal r.legal huop fun e => hidx (.inl e)
  have hcontrol := control_of_exec huop h0 hv (fun e => hidx (.inr e)) ht
  have hjob : t.job = s.job := by
    obtain hkeep | ⟨-, hne, -⟩ | ⟨he, -⟩ := job_of_exec huop ht
    · exact hkeep
    · exact absurd hv hne
    · exact absurd he hend
  have hframe := frame_of_exec huop ht
  refine ⟨t, ht, ⟨hjob.trans r.busy, ?_, ?_⟩, ?_, ?_, hcontrol⟩
  all_goals rw [hframe]
  · exact r.quiet
  · exact { r.legal with }
  · exact h0
  · rfl

/-! ### Paths of control -/

/-- The listed uops, none of them END, stand one after another on the way of control from `c` to `c'`, and HXOR and HADD come
at word indices of the key only. -/
def ControlPath (l : Nat) : Control → List Instr → Control → Prop
  | c, [], c' => c = c'
  | c, i :: is, c' =>
    encode i = .uop c.1 ∧ i ≠ .endJob ∧ (i = .hxor ∨ i = .hadd → c.2 < l) ∧ ControlPath l (controlAfter l c.2 i) is c'

theorem ControlPath.append {l : Nat} {is js : List Instr} {c c' c'' : Control} (h : ControlPath l c is c')
    (h' : ControlPath l c' js c'') : ControlPath l c (is ++ js) c'' := by
  induction is generalizing c with
  | nil => rwa [show c = c' from h]
  | cons i is ih =>
    obtain ⟨hi, hend, hidx, hrest⟩ := h
    exact ⟨hi, hend, hidx, ih hrest⟩

/-- The sequencer performs every path that starts where control stands. -/
theorem StandsAt.performs {l : Nat} {c c' : Control} {is : List Instr} {s : State} (h : StandsAt l c s)
    (p : ControlPath l c is c') : ∃ t, Performs is s t ∧ StandsAt l c' t := by
  induction is generalizing c s with
  | nil => exact ⟨s, .nil s, (show c = c' from p) ▸ h⟩
  | cons i is ih =>
    obtain ⟨hi, hend, hidx, hrest⟩ := p
    obtain ⟨t, hrun, ht⟩ := h.completes hi hend hidx
    obtain ⟨u, hu, hstands⟩ := ih ht hrest
    have hcode : encode i = .uop s.upc := by rw [hi, ← h.control]
    exact ⟨u, .cons h.running.quiet h.running.busy hcode hrun hu, hstands⟩

/-- END, the last uop of a job (R104). -/
theorem StandsAt.performs_endJob {l j : Nat} {s : State} (h : StandsAt l (0x70, j) s) :
    Performs [.endJob] s { s with job := .done, upc := 0x00 } :=
  have hcode : s.upc = 0x70 := congrArg Prod.fst h.control
  .cons h.running.quiet h.running.busy (by rw [hcode]; rfl) rfl (.nil _)

/-! ### `JOB(L)` is a path of control -/

theorem length_foldTimes (n : Nat) : (foldTimes n).length = 4 * n := by
  induction n with
  | zero => rfl
  | succ n ih =>
    rw [foldTimes, List.length_append, ih]
    show 4 + 4 * n = _
    omega

/-- R162. -/
theorem length_jobSeq {l : Nat} (hl : 0 < l) : (jobSeq l).length = 4 * l + 10 := by
  simp only [jobSeq, List.length_append, length_foldTimes, kmixSeq, finalSeq, fmixSeq, List.length_cons, List.length_nil]
  omega

/-- CHECK to HINIT, which leads to the fold at word 1 (R120). -/
theorem controlPath_toFold (l : Nat) :
    ControlPath l (0x01, 0) ([Instr.check, .copy] ++ kmixSeq ++ [Instr.hinit]) (foldEntry l 1) := by
  simp [ControlPath, controlAfter, kmixSeq, encode, uopCode]

/-- One pass of the fold. -/
theorem controlPath_foldSeq {l j : Nat} (hj : j < l) : ControlPath l (foldEntry l j) foldSeq (foldEntry l (j + 1)) := by
  rw [show foldEntry l j = (0x30, j) from congrArg (·, j) (if_pos hj)]
  simp [ControlPath, controlAfter, foldSeq, encode, uopCode, hj]

/-- From word `j` on the fold takes one pass for each word that is left (R161). -/
theorem controlPath_foldTimes {l : Nat} (n j : Nat) (h : j + n = l) :
    ControlPath l (foldEntry l j) (foldTimes n) (0x40, l) := by
  induction n generalizing j with
  | zero =>
    obtain rfl : j = l := h
    exact congrArg (·, j) (if_neg (Nat.lt_irrefl j))
  | succ n ih => exact (controlPath_foldSeq (by omega)).append (ih (j + 1) (by omega))

/-- HLEN to HOUT. -/
theorem controlPath_toEnd (l : Nat) : ControlPath l (0x40, l) (finalSeq ++ [Instr.hout]) (0x70, l) := by
  simp [ControlPath, controlAfter, finalSeq, fmixSeq, encode, uopCode]

/-- R160: a job that passes CHECK performs `JOB(L)`. -/
theorem StandsAt.performs_jobSeq {l : Nat} {s : State} (h : StandsAt l (0x01, 0) s) (hl : 0 < l) :
    ∃ t, Performs (jobSeq l) s t := by
  have hfold := controlPath_foldTimes (l := l) (l - 1) 1 (by omega)
  obtain ⟨t, hperf, ht⟩ := h.performs (((controlPath_toFold l).append hfold).append (controlPath_toEnd l))
  have hsplit : jobSeq l = [Instr.check, .copy] ++ kmixSeq ++ [Instr.hinit] ++ foldTimes (l - 1) ++
      (finalSeq ++ [Instr.hout]) ++ [Instr.endJob] := by
    simp only [jobSeq, List.append_assoc, List.cons_append, List.nil_append]
  rw [hsplit]
  exact ⟨_, hperf.append ht.performs_endJob⟩

/-- Settles O41: the job performs `JOB(L)`, and the three clauses are what that says of its length and its run. -/
theorem sequencerPerformsJobOfL : Obligations.SequencerPerformsJobOfL := by
  intro s h0 he start legal
  have hl : 0 < s.L := L_pos_of_legal ((violations_eq_zero_iff s).2 legal)
  have hstart : StandsAt s.L (0x01, 0) s :=
    ⟨⟨start.busy, he, legal⟩, h0, rfl, by rw [start.atCheck, start.idxZero]; rfl⟩
  obtain ⟨t, ht⟩ := hstart.performs_jobSeq hl
  rw [← length_jobSeq hl]
  exact ⟨rfl, ht.runSteps_eq.trans ht.execAll_eq.symm, ht.uop_at⟩

end Sys2Proof.Machine
end

section
/-! PROOFS. The arithmetic primitives (40_alu_primitives.md): where the rotation puts each bit (R87), and that each map of
R90 is a bijection. XOR with a constant is its own inverse; addition and multiplication are those of the ring of words; the
other two are injective because the word can be recovered from the result, and there are finitely many words. -/

namespace Sys2Proof.Machine

/-! ### The rotation, bit by bit -/

/-- R87: the low `r` bits come from the top of the word, the others from `r` places below. -/
theorem getLsbD_rotl32 (x : Word) (r : Nat) (h : 1 ≤ r ∧ r ≤ 31) (i : Nat) (hi : i < 32) :
    (rotl32 x r h).getLsbD i = x.getLsbD ((i + 32 - r) % 32) := by
  rw [rotl32_eq_rotateLeft, BitVec.getLsbD_rotateLeft_of_le (by omega)]
  by_cases hir : i < r
  · have hwrap : (i + 32 - r) % 32 = 32 - r + i := by omega
    simp [hir, hwrap]
  · have hmove : (i + 32 - r) % 32 = i - r := by omega
    simp [hir, hi, hmove]

/-- Settles O47: the two ranges of `i` in `getLsbD_rotl32` are one formula modulo 32. -/
theorem rotationMovesEveryBit : Obligations.RotationMovesEveryBit := getLsbD_rotl32

/-! ### The bijections of R90 -/

/-- R90: XOR with `c` is its own inverse. -/
theorem xor32_bijective (c : Word) : Function.Bijective fun x => xor32 x c :=
  Function.Involutive.bijective fun x => by simp [xor32]

theorem add32_bijective (c : Word) : Function.Bijective fun x => add32 x c := by
  simpa only [add32_eq_add] using AddGroup.addRight_bijective c

/-- R90: the inverse of the rotation by `r` is the rotation by `32 - r`. -/
theorem rotl32_rotl32_sub (x : Word) (r : Nat) (h : 1 ≤ r ∧ r ≤ 31) :
    rotl32 (rotl32 x r h) (32 - r) (by omega) = x := by
  apply BitVec.eq_of_getLsbD_eq
  intro i hi
  have hround : ((i + 32 - (32 - r)) % 32 + 32 - r) % 32 = i := by omega
  rw [getLsbD_rotl32 _ _ _ i hi, getLsbD_rotl32 _ _ _ _ (Nat.mod_lt _ (by decide)), hround]

theorem rotl32_bijective (r : Nat) (h : 1 ≤ r ∧ r ≤ 31) : Function.Bijective fun x => rotl32 x r h :=
  have hinv : Function.LeftInverse (fun y => rotl32 y (32 - r) (by omega)) fun x => rotl32 x r h :=
    fun x => rotl32_rotl32_sub x r h
  hinv.injective.bijective_of_finite

/-- R90: an odd number has an inverse modulo 2^32. -/
theorem isUnit_of_odd_toNat {m : Word} (hm : m.toNat % 2 = 1) : IsUnit m := by
  have hcop : m.toNat.Coprime (2 ^ 32) := (Nat.coprime_two_right.2 (Nat.odd_iff.2 hm)).pow_right 32
  obtain ⟨n, -, hn⟩ := Nat.exists_mul_mod_eq_one_of_coprime hcop (by decide)
  refine IsUnit.of_mul_eq_one (BitVec.ofNat 32 n) (BitVec.eq_of_toNat_eq ?_)
  simpa [BitVec.toNat_mul] using hn

theorem mul32_bijective {m : Word} (hm : m.toNat % 2 = 1) : Function.Bijective fun x => mul32 x m := by
  obtain ⟨u, rfl⟩ := isUnit_of_odd_toNat hm
  simpa only [mul32_eq_mul] using u.mulRight_bijective

/-- R86: what the shifted word adds to bit `i` is bit `r + i`, which reads as 0 past bit 31. -/
theorem getLsbD_xor32_shr32 (x : Word) (r : Nat) (h : r ≤ 31) (i : Nat) :
    (xor32 x (shr32 x r h)).getLsbD i = (x.getLsbD i ^^ x.getLsbD (r + i)) := by
  rw [xor32, shr32_eq_ushiftRight, BitVec.getLsbD_xor, BitVec.getLsbD_ushiftRight]

/-- R90: the bits of `x` can be recovered from the top down, each from the result and a bit `r` places above it. -/
theorem xor32_shr32_injective (r : Nat) (h : 1 ≤ r ∧ r ≤ 31) :
    Function.Injective fun x => xor32 x (shr32 x r h.2) := by
  intro x y hxy
  have hbits (i : Nat) : (x.getLsbD i ^^ x.getLsbD (r + i)) = (y.getLsbD i ^^ y.getLsbD (r + i)) := by
    simpa only [getLsbD_xor32_shr32] using congrArg (BitVec.getLsbD · i) hxy
  have htop (n i : Nat) (hin : 32 ≤ i + n) : x.getLsbD i = y.getLsbD i := by
    induction n generalizing i with
    | zero => rw [BitVec.getLsbD_of_ge x i hin, BitVec.getLsbD_of_ge y i hin]
    | succ n ih =>
      have habove : x.getLsbD (r + i) = y.getLsbD (r + i) := ih (r + i) (by omega)
      exact Bool.xor_left_inj.1 (habove ▸ hbits i)
  exact BitVec.eq_of_getLsbD_eq fun i _ => htop 32 i (by omega)

theorem xor32_shr32_bijective (r : Nat) (h : 1 ≤ r ∧ r ≤ 31) :
    Function.Bijective fun x => xor32 x (shr32 x r h.2) :=
  (xor32_shr32_injective r h).bijective_of_finite

/-- Settles O48: the rows of R90's table. -/
theorem datapathMapsAreBijections : Obligations.DatapathMapsAreBijections :=
  ⟨xor32_bijective, add32_bijective, rotl32_bijective, fun _ => mul32_bijective, xor32_shr32_bijective⟩

end Sys2Proof.Machine
end

section
/-! PROOFS. Job control (41_job_control.md): HASH, CHECK, COPY, END. The mask of CHECK is read bit by bit, and COPY is one
`forall` over the words of the working copy, which fits wherever those words exist. -/

namespace Sys2Proof.Machine

open Sys2Proof.Claims

/-! ### HASH and END -/

/-- Settles O9, by the two cases of HASH. -/
theorem hashStartsAJobUnlessOneRuns : Obligations.HashStartsAJobUnlessOneRuns :=
  ⟨rfl, fun _ stopped => if_neg stopped, fun _ busy => if_pos busy⟩

/-- Settles O13, by the meaning of END. -/
theorem endFinishesTheJob : Obligations.EndFinishesTheJob := ⟨rfl, fun _ => rfl⟩

/-! ### CHECK -/

theorem exec_check_of_legal {s : State} (legal : LegalDescriptor s) : exec .check s = .next (s.goto 0x02) :=
  if_neg (not_not_intro ((violations_eq_zero_iff s).2 legal))

theorem exec_check_of_violations {s : State} (hv : violations s ≠ 0) :
    exec .check s = .next (raiseContractError (violations s) s) :=
  if_pos hv

/-- Settles O10: a legal descriptor has no violation. -/
theorem checkPassesALegalDescriptor : Obligations.CheckPassesALegalDescriptor :=
  ⟨rfl, fun _ legal => exec_check_of_legal legal⟩

/-! What each condition of R102 says on the registers and the capacities. -/

theorem rankViolated_iff (s : State) : rankViolated s = true ↔ s.keyNdim ≠ 3 ∨ s.seedNdim ≠ 1 := by
  rw [rankViolated, Bool.or_eq_true, bne_iff_ne, bne_iff_ne]

theorem seedCountViolated_iff (s : State) : seedCountViolated s = true ↔ s.seedN ≠ s.dimS := bne_iff_ne

theorem wordLenViolated_iff (s : State) : wordLenViolated s = true ↔ s.dimL = 0 := beq_iff_eq

theorem capacityViolated_iff (s : State) : capacityViolated s = true ↔
    s.fits .key s.words3 = false ∨ s.fits .work s.words3 = false ∨ s.fits .seed s.S = false ∨
      s.fits .h1 s.words2 = false ∨ s.fits .out s.words2 = false := by
  simp only [capacityViolated, Bool.or_eq_true, Bool.not_eq_true', or_assoc]

/-- Settles O11: the mask is not zero, and each of its bits is one condition of R102. -/
theorem checkTrapsAndReportsEveryViolation : Obligations.CheckTrapsAndReportsEveryViolation := by
  intro s illegal
  have hv : violations s ≠ 0 := mt (violations_eq_zero_iff s).1 illegal
  obtain ⟨rank, seedCount, wordLen, capacity⟩ :=
    maskOf_getLsbD (rankViolated s) (seedCountViolated s) (wordLenViolated s) (capacityViolated s)
  refine ⟨violations s, exec_check_of_violations hv, hv, ?_, ?_, ?_, ?_⟩
  · rw [violations, rank, rankViolated_iff]
  · rw [violations, seedCount, seedCountViolated_iff]
  · rw [violations, wordLen, wordLenViolated_iff]
  · rw [violations, capacity, capacityViolated_iff]; rfl

/-! ### COPY -/

/-- R7: a word beyond those of the job is not written. -/
theorem State.read?_forall3_of_le (s : State) (dst : Space) (f : Nat → Nat → Nat → Word) {a : Nat} (ha : s.words3 ≤ a) :
    ((s.forall3 dst f).space dst).read? a = (s.space dst).read? a := by
  rw [State.read?_forall3, if_neg (Nat.not_lt.2 ha)]

/-- What a uop has done that is one `forall` over the words of the working copy. -/
theorem work_of_forall3 {s : State} {r : Result} {f : Nat → Nat → Nat → Word} {u : Byte}
    (h : r = .next ((s.forall3 .work f).goto u)) :
    ∃ t, r = .next t ∧
      (∀ g k l, g < s.S → k < s.K → l < s.L → t.work.read? (s.a3 g k l) = some (f g k l)) ∧
      (∀ a, s.words3 ≤ a → t.work.read? a = s.work.read? a) ∧
      t = { s with work := t.work, upc := u, draws := s.draws + 1 } :=
  ⟨_, h, fun _ _ _ => s.read?_forall3_a3 .work f, fun _ => s.read?_forall3_of_le .work f, rfl⟩

/-- Settles O12: the words fit, so COPY is the `forall` of R103. -/
theorem copyDuplicatesTheKeyBatch : Obligations.CopyDuplicatesTheKeyBatch := by
  refine ⟨rfl, fun s hkey hwork => work_of_forall3 (State.needing_of_fits ?_)⟩
  simpa using ⟨allExist3_iff.1 hkey, allExist3_iff.1 hwork⟩

end Sys2Proof.Machine
end

section
/-! PROOFS. Per-word mixing (42_word_mix.md): KMUL1, KROT and KMUL2 are one in-place shape, `mapWork`, each with an operation
of its own; performed after COPY their three operations compose to `kmix` (R113). -/

namespace Sys2Proof.Machine

open Sys2Proof.Claims

/-! ### One uop over the working copy -/

/-- R89: a uop of the shape `mapWork` replaces every word by the operation's value, however the operation is written. -/
theorem rewritesWork_of_mapWork {i : Instr} {u n : Byte} {op op' : Word → Word} (hu : encode i = .uop u)
    (hi : ∀ s, exec i s = mapWork op n s) (hop : ∀ w, op w = op' w) : RewritesWork i u n op' := by
  obtain rfl : op = op' := funext hop
  exact ⟨hu, fun s hw => work_of_forall3 ((hi s).trans (mapWork_of_fits (allExist3_iff.1 hw)))⟩

/-- Settles O14: R81 is the product of words. -/
theorem kmul1MultipliesEveryWordByC1 : Obligations.Kmul1MultipliesEveryWordByC1 :=
  rewritesWork_of_mapWork rfl (fun _ => rfl) fun w => mul32_eq_mul w c1

/-- Settles O15: R87 is the rotation of a word. -/
theorem krotRotatesEveryWordBy15 : Obligations.KrotRotatesEveryWordBy15 :=
  rewritesWork_of_mapWork rfl (fun _ => rfl) fun w => rotl32_eq_rotateLeft w 15 (by decide)

/-- Settles O16: R81 is the product of words. -/
theorem kmul2MultipliesEveryWordByC2 : Obligations.Kmul2MultipliesEveryWordByC2 :=
  rewritesWork_of_mapWork rfl (fun _ => rfl) fun w => mul32_eq_mul w c2

/-! ### The uops in turn (R113) -/

theorem execAll_cons_of_next {i : Instr} {is : List Instr} {s t : State} (h : exec i s = .next t) :
    execAll (i :: is) s = execAll is t := by
  rw [execAll_cons, h, andThen_next]

theorem kmix_eq (w : Word) : kmix w = (w * 0xCC9E2D51).rotateLeft 15 * 0x1B873593 := by
  rw [kmix, mul32_eq_mul, rotl32_eq_rotateLeft, mul32_eq_mul, c1, c2]

/-- At a stage whose working copy holds `f`, the uop leaves its operation's value of `f` there. -/
theorem exec_stage_of_rewritesWork {n : Instr} {u v t : Byte} {op : Word → Word} (hop : RewritesWork n u t op) {s : State}
    {w h : Memory} {i : Word} {d : Nat} {f : Nat → Nat → Nat → Word} (hwork : AllExist3 s .work) (hw : Holds3 s w f) :
    ∃ w', exec n (stage s w h i v d) = .next (stage s w' h i t (d + 1)) ∧ Holds3 s w' fun g k l => op (f g k l) := by
  obtain ⟨s', run, words, -, frame⟩ := hop.2 (stage s w h i v d) hwork
  refine ⟨s'.work, run.trans (congrArg _ frame), fun g k l hg hk hl => ?_⟩
  have value : (stage s w h i v d).load .work (s.a3 g k l) = f g k l := State.load_of_read? (hw g k l hg hk hl)
  show _ = some (op (f g k l))
  rw [← value]
  exact words g k l hg hk hl

/-- Settles O17: COPY leaves the words of `KEY` in `WORK`, and the operations of the three uops compose to `kmix`. -/
theorem mixedWordsAreKmixOfTheKey : Obligations.MixedWordsAreKmixOfTheKey := by
  intro s hkey hwork
  obtain ⟨t, run, words, -, frame⟩ := copyDuplicatesTheKeyBatch.2 s hkey hwork
  have copied : exec .copy s = .next (stage s t.work s.h1 s.idx 0x10 (s.draws + 1)) := run.trans (congrArg _ frame)
  obtain ⟨w1, mul1, words⟩ := exec_stage_of_rewritesWork kmul1MultipliesEveryWordByC1 hwork words
  obtain ⟨w2, rot, words⟩ := exec_stage_of_rewritesWork krotRotatesEveryWordBy15 hwork words
  obtain ⟨w3, mul2, words⟩ := exec_stage_of_rewritesWork kmul2MultipliesEveryWordByC2 hwork words
  refine ⟨stage s w3 s.h1 s.idx 0x20 (s.draws + 4), ?_, fun g k l hg hk hl => ?_, rfl⟩
  · rw [execAll_cons_of_next copied, kmixSeq, execAll_cons_of_next mul1, execAll_cons_of_next rot,
      execAll_cons_of_next mul2, execAll]
  · rw [kmix_eq]
    exact words g k l hg hk hl

end Sys2Proof.Machine
end

section
/-! PROOFS. Initialisation and fold (43_fold.md): HINIT, HXOR, HROT, HMUL5 and HADD are each one `forall` over the running
hashes, which fits wherever the words exist; performed in turn, the last four compose to `fold` (R126). -/

namespace Sys2Proof.Machine

open Sys2Proof.Claims

/-! ### One uop over the running hashes -/

/-- R7: a word beyond those of the job is not written. -/
theorem State.read?_forall2_of_le (s : State) (dst : Space) (f : Nat → Nat → Word) {a : Nat} (ha : s.words2 ≤ a) :
    ((s.forall2 dst f).space dst).read? a = (s.space dst).read? a := by
  rw [State.read?_forall2, if_neg (Nat.not_lt.2 ha)]

/-- What a uop has done that is one `forall` over the running hashes, and where it leaves `IDX` and `UPC`. -/
theorem h1_of_forall2 {s : State} {r : Result} {f : Nat → Nat → Word} {i : Word} {u : Byte}
    (h : r = .next { s.forall2 .h1 f with idx := i, upc := u }) :
    ∃ t, r = .next t ∧
      (∀ g k, g < s.S → k < s.K → t.h1.read? (s.a2 g k) = some (f g k)) ∧
      (∀ a, s.words2 ≤ a → t.h1.read? a = s.h1.read? a) ∧
      t = { s with h1 := t.h1, idx := i, upc := u, draws := s.draws + 1 } :=
  ⟨_, h, fun _ _ => s.read?_forall2_a2 .h1 f, fun _ => s.read?_forall2_of_le .h1 f, rfl⟩

/-- R89: a uop of the shape `mapH1` replaces every hash by the operation's value, however the operation is written. -/
theorem rewritesH1_of_mapH1 {i : Instr} {u n : Byte} {op op' : State → Word → Word} (hu : encode i = .uop u)
    (hi : ∀ s, exec i s = mapH1 (op s) n s) (hop : ∀ s h, op s h = op' s h) : RewritesH1 i u n op' := by
  obtain rfl : op = op' := funext fun s => funext (hop s)
  exact ⟨hu, fun s hh => h1_of_forall2 ((hi s).trans (mapH1_of_fits (allExist2_iff.1 hh)))⟩

/-- Settles O18: the words fit, so HINIT is the `forall` of R120. -/
theorem hinitXorsWordZeroWithTheSeed : Obligations.HinitXorsWordZeroWithTheSeed := by
  refine ⟨rfl, fun s h0 hwork hseed hh1 => h1_of_forall2 ((exec_hinit_unfolded h0).trans (State.needing_of_fits ?_))⟩
  simpa using ⟨columnExists_iff.1 hwork, seedsExist_iff.1 hseed, allExist2_iff.1 hh1⟩

/-- Settles O19: the words fit, so HINIT is the `forall` of R135. -/
theorem hinitUnderTheOtherReadingTakesTheSeed : Obligations.HinitUnderTheOtherReadingTakesTheSeed := by
  refine fun s h0 hseed hh1 => h1_of_forall2 ((exec_hinit_folded h0).trans (State.needing_of_fits ?_))
  simpa using ⟨seedsExist_iff.1 hseed, allExist2_iff.1 hh1⟩

/-- Settles O20: the words fit, so HXOR is the `forall` of R122. -/
theorem hxorFoldsInTheWordAtIdx : Obligations.HxorFoldsInTheWordAtIdx := by
  refine ⟨rfl, fun s hwork hh1 => h1_of_forall2 (State.needing_of_fits ?_)⟩
  simpa using ⟨columnExists_iff.1 hwork, allExist2_iff.1 hh1⟩

/-- Settles O21: R87 is the rotation of a word. -/
theorem hrotRotatesEveryHashBy13 : Obligations.HrotRotatesEveryHashBy13 :=
  rewritesH1_of_mapH1 rfl (fun _ => rfl) fun _ h => rotl32_eq_rotateLeft h 13 (by decide)

/-- Settles O22: R81 is the product of words. -/
theorem hmul5MultipliesEveryHashBy5 : Obligations.Hmul5MultipliesEveryHashBy5 :=
  rewritesH1_of_mapH1 rfl (fun _ => rfl) fun _ h => mul32_eq_mul h m5

/-- R125: below `L` the increment of `IDX` does not wrap. -/
theorem State.toNat_idx_succ {s : State} (h : s.idx.toNat < s.L) : (s.idx + 1).toNat = s.idx.toNat + 1 :=
  have hL : s.L < 2 ^ 32 := s.dimL.isLt
  BitVec.toNat_add_of_lt (show s.idx.toNat + 1 < 2 ^ 32 by omega)

/-- Settles O23: the words fit, so HADD is the `forall` of R125, with R82 as the sum of words. -/
theorem haddAddsAndAdvancesTheLoop : Obligations.HaddAddsAndAdvancesTheLoop := by
  refine ⟨rfl, fun s hh1 => ?_⟩
  have run : exec .hadd s = .next { s.forall2 .h1 fun g k => add32 (s.load .h1 (s.a2 g k)) nadd with
      idx := s.idx + 1, upc := if s.idx.toNat + 1 < s.L then 0x30 else 0x40 } :=
    State.needing_of_fits (List.forall_mem_singleton.2 (allExist2_iff.1 hh1))
  simp only [add32_eq_add] at run
  obtain ⟨t, ht, hashes, rest, frame⟩ := h1_of_forall2 run
  have idx : t.idx = s.idx + 1 := congrArg State.idx frame
  exact ⟨t, ht, hashes, rest, fun h => idx ▸ State.toNat_idx_succ h, frame⟩

/-! ### The uops in turn (R126) -/

theorem fold_eq (h m : Word) : fold h m = (h ^^^ m).rotateLeft 13 * 5 + 0xE6546B64 := by
  rw [fold, add32_eq_add, mul32_eq_mul, rotl32_eq_rotateLeft, xor32, m5, nadd]

/-- At a stage whose running hashes are `f`, the uop leaves its operation's value of `f` there. -/
theorem exec_stage_of_rewritesH1 {n : Instr} {u v t : Byte} {op : State → Word → Word} (hop : RewritesH1 n u t op)
    {s : State} {w h : Memory} {i : Word} {d : Nat} {f : Nat → Nat → Word} (hh1 : AllExist2 s .h1) (hh : Holds2 s h f) :
    ∃ h', exec n (stage s w h i v d) = .next (stage s w h' i t (d + 1)) ∧
      Holds2 s h' fun g k => op (stage s w h i v d) (f g k) := by
  obtain ⟨s', run, hashes, -, frame⟩ := hop.2 (stage s w h i v d) hh1
  refine ⟨s'.h1, run.trans (congrArg _ frame), fun g k hg hk => ?_⟩
  have value : (stage s w h i v d).load .h1 (s.a2 g k) = f g k := State.load_of_read? (hh g k hg hk)
  show _ = some (op _ (f g k))
  rw [← value]
  exact hashes g k hg hk

/-- At a stage whose running hashes are `f`, HADD leaves the sums there and takes control to R125's next stage. -/
theorem exec_hadd_stage {s : State} {w h : Memory} {i : Word} {v : Byte} {d : Nat} {f : Nat → Nat → Word}
    (hh1 : AllExist2 s .h1) (hh : Holds2 s h f) :
    ∃ h', exec .hadd (stage s w h i v d) =
        .next (stage s w h' (i + 1) (if i.toNat + 1 < s.L then 0x30 else 0x40) (d + 1)) ∧
      Holds2 s h' fun g k => f g k + 0xE6546B64 := by
  obtain ⟨s', run, hashes, -, -, frame⟩ := haddAddsAndAdvancesTheLoop.2 (stage s w h i v d) hh1
  refine ⟨s'.h1, run.trans (congrArg _ frame), fun g k hg hk => ?_⟩
  have value : (stage s w h i v d).load .h1 (s.a2 g k) = f g k := State.load_of_read? (hh g k hg hk)
  show _ = some (f g k + _)
  rw [← value]
  exact hashes g k hg hk

/-- Settles O24: HXOR takes in the word at `IDX`, and the operations of the four uops compose to `fold`. -/
theorem onePassIsFold : Obligations.OnePassIsFold := by
  intro s hwork hh1
  obtain ⟨t, run, hashes, -, frame⟩ := hxorFoldsInTheWordAtIdx.2 s hwork hh1
  have xored : exec .hxor s = .next (stage s s.work t.h1 s.idx 0x31 (s.draws + 1)) := run.trans (congrArg _ frame)
  obtain ⟨h1, rot, hashes⟩ := exec_stage_of_rewritesH1 hrotRotatesEveryHashBy13 hh1 hashes
  obtain ⟨h2, mul, hashes⟩ := exec_stage_of_rewritesH1 hmul5MultipliesEveryHashBy5 hh1 hashes
  obtain ⟨h3, add, hashes⟩ := exec_hadd_stage hh1 hashes
  refine ⟨stage s s.work h3 (s.idx + 1) (if s.idx.toNat + 1 < s.L then 0x30 else 0x40) (s.draws + 4), ?_,
    fun g k hg hk => ?_, rfl⟩
  · rw [foldSeq, execAll_cons_of_next xored, execAll_cons_of_next rot, execAll_cons_of_next mul,
      execAll_cons_of_next add, execAll]
  · rw [fold_eq]
    exact hashes g k hg hk

end Sys2Proof.Machine
end

section
/-! PROOFS. The whole job (45_job_function.md R164, R165): from a requested HASH to the words of `OUT`, on this hardware and
under the other reading (43_fold.md R135). HINIT leaves the job at the entry of the fold with some words left, and from there
on the two readings run alike. Then what a change of one seed does (R121, R174). -/

namespace Sys2Proof.Machine

open Sys2Proof.Claims

/-! ### From the entry of the fold to the end -/

/-- The job that runs in `s`, ended with the hashes `o` in `OUT` (R104). -/
def ended (s : State) (w h o : Memory) (d : Nat) : State :=
  { stage s w h s.dimL 0x00 d with out := o, job := .done }

/-- From the entry of the fold at word `i` with `n` words left, the job takes `4*n + 8` uops to its end (R161, R162). -/
theorem Running.fromFold {s : State} (r : Running s) {w h : Memory} {d : Nat} {f : Nat → Nat → Nat → Word}
    {f2 : Nat → Nat → Word} (hw : Holds3 s w f) (hh : Holds2 s h f2) {i : Word} {n : Nat} (hi : i.toNat + n = s.L) :
    ∃ h' o d', runSteps (4 * n + 8) (stage s w h i (if i.toNat < s.L then 0x30 else 0x40) d) =
        .next (ended s w h' o d') ∧
      (Holds2 s o fun g k => fmix32 (xor32 (((List.range n).map fun j => f g k (i.toNat + j)).foldl fold (f2 g k))
        (len32 s.L))) ∧
      ∀ a, s.S * s.K ≤ a → o.read? a = s.out.read? a := by
  cases n with
  | zero =>
    obtain rfl : i = s.dimL := BitVec.eq_of_toNat_eq hi
    obtain ⟨h', o, run, hashes, rest⟩ := r.fromHlen (w := w) (i := s.dimL) (d := d) hh
    rw [if_neg (show ¬ s.dimL.toNat < s.L from Nat.lt_irrefl _)]
    exact ⟨h', o, _, run, hashes, rest⟩
  | succ n =>
    obtain ⟨h1, folds, folded⟩ := r.foldLoop hw (n + 1) i h d f2 hh hi (Nat.succ_pos n)
    obtain ⟨h', o, run, hashes, rest⟩ := r.fromHlen (w := w) (i := s.dimL) (d := d + 4 * (n + 1)) folded
    rw [if_pos (by omega), run_add_of_next folds]
    exact ⟨h', o, _, run, hashes, rest⟩

/-- The state in which a HASH that is the only event leaves the machine (R100). -/
def started (s : State) : State := beginJob { s with events := [] }

/-! ### The words of a key -/

/-- Word 0 and the words after it are the words of the key in their order. -/
theorem cons_keyTail {s : State} (hL : 0 < s.L) (g k : Nat) :
    s.load .key (s.a3 g k 0) :: keyTail s g k = (List.range s.L).map fun l => s.load .key (s.a3 g k l) := by
  obtain ⟨n, hn⟩ := Nat.exists_eq_succ_of_ne_zero hL.ne'
  rw [keyTail, hn, List.range_succ_eq_map, List.map_cons, List.map_map]
  rfl

theorem length_keyTail {s : State} (hL : 0 < s.L) (g k : Nat) : (keyTail s g k).length + 1 = s.L := by
  rw [keyTail, List.length_map, List.length_range, Nat.sub_add_cancel hL]

/-- The hash of R164, with the mixed words counted from word 1 on as the fold takes them. -/
theorem expectedHash_eq {s : State} (hL : 0 < s.L) (g k : Nat) :
    expectedHash s g k = fmix32 (xor32 (((List.range (s.L - 1)).map fun j => kmix (s.load .key (s.a3 g k (1 + j)))).foldl
      fold (xor32 (kmix (s.load .key (s.a3 g k 0))) (s.load .seed (s.a1 g)))) (len32 s.L)) := by
  rw [expectedHash, hash1, length_keyTail hL]
  simp only [keyTail, List.foldl_map, Nat.add_comm 1]

/-- The hash of R135, with the mixed words counted from word 0 on as the fold takes them. -/
theorem hash1Folded_cons_keyTail {s : State} (hL : 0 < s.L) (g k : Nat) (sd : Word) :
    hash1Folded (s.load .key (s.a3 g k 0) :: keyTail s g k) sd =
      fmix32 (xor32 (((List.range s.L).map fun j => kmix (s.load .key (s.a3 g k (0 + j)))).foldl fold sd) (len32 s.L)) := by
  simp only [cons_keyTail hL, hash1Folded, List.length_map, List.length_range, List.foldl_map, Nat.zero_add]

/-! ### The start of a requested job -/

section
variable {s : State} (q : JobRequested s)
include q

theorem step_of_requested : step s = .next (started s) :=
  (step_of_hash q.command).trans (if_neg q.notBusy)

theorem running_started : Running (started s) := ⟨rfl, rfl, { q.legal with }⟩

theorem L_pos_of_requested : 0 < s.L := (running_started q).L_pos

theorem holds3_key_of_requested : Holds3 (started s) s.key fun g k l => s.load .key (s.a3 g k l) :=
  fun _ _ _ hg hk hl => State.read?_of_written (sp := .key) q.keys (s.a3_lt hg hk hl)

theorem read?_seed_of_requested {g : Nat} (hg : g < s.S) : s.seed.read? g = some (s.load .seed (s.a1 g)) :=
  State.read?_of_written (sp := .seed) q.seeds hg

/-- HASH, CHECK, COPY and the mixing (R100, R113). -/
theorem toHinit_of_requested :
    ∃ w, runSteps 6 s = .next (stage (started s) w s.h1 0 0x20 (s.draws + 4)) ∧
      Holds3 (started s) w fun g k l => kmix (s.load .key (s.a3 g k l)) := by
  obtain ⟨w, run, mixed⟩ := (running_started q).toHinit (w := s.work) (h := s.h1) (i := 0) (d := s.draws)
    (holds3_key_of_requested q)
  exact ⟨w, (run_succ_of_next (step_of_requested q)).trans run, mixed⟩

/-! ### The two readings of the job -/

/-- R165: on this hardware a requested job ends with `hash1` of every key in `OUT`. -/
theorem job_ends (h0 : s.cfg.firstWordFold = false) :
    ∃ w h o d, runSteps (4 * s.L + 11) s = .next (ended (started s) w h o d) ∧ Holds2 s o (expectedHash s) ∧
      ∀ a, s.S * s.K ≤ a → o.read? a = s.out.read? a := by
  have hL := L_pos_of_requested q
  obtain ⟨w, mix, mixed⟩ := toHinit_of_requested q
  obtain ⟨h1, init, inited⟩ := (running_started q).step_hinit (h := s.h1) (i := 0) (d := s.draws + 4) h0 mixed
    fun _ hg => read?_seed_of_requested q hg
  have hleft : (1 : Word).toNat + (s.L - 1) = (started s).L := show 1 + (s.L - 1) = s.L by omega
  obtain ⟨h, o, d, run, hashes, rest⟩ := (running_started q).fromFold (d := s.draws + 5) mixed inited hleft
  refine ⟨w, h, o, d, ?_, fun g k hg hk => (hashes g k hg hk).trans (congrArg some (expectedHash_eq hL g k).symm), rest⟩
  rw [show 4 * s.L + 11 = 6 + (4 * (s.L - 1) + 8 + 1) by omega, run_add_of_next mix, run_succ_of_next init]
  exact run

/-- R135: under the other reading a requested job ends with the hash in `OUT` that folds every word of the key. -/
theorem jobFolded_ends (h0 : s.cfg.firstWordFold = true) :
    ∃ w h o d, runSteps (4 * s.L + 15) s = .next (ended (started s) w h o d) ∧
      (Holds2 s o fun g k => hash1Folded (s.load .key (s.a3 g k 0) :: keyTail s g k) (s.load .seed (s.a1 g))) ∧
      ∀ a, s.S * s.K ≤ a → o.read? a = s.out.read? a := by
  have hL := L_pos_of_requested q
  obtain ⟨w, mix, mixed⟩ := toHinit_of_requested q
  obtain ⟨h1, init, inited⟩ := (running_started q).step_hinit_folded (w := w) (h := s.h1) (i := 0) (d := s.draws + 4) h0
    fun _ hg => read?_seed_of_requested q hg
  have hleft : (0 : Word).toNat + s.L = (started s).L := Nat.zero_add _
  obtain ⟨h, o, d, run, hashes, rest⟩ := (running_started q).fromFold (d := s.draws + 5) mixed inited hleft
  rw [if_pos (show (0 : Word).toNat < (started s).L from hL)] at run
  refine ⟨w, h, o, d, ?_, fun g k hg hk =>
    (hashes g k hg hk).trans (congrArg some (hash1Folded_cons_keyTail hL g k _).symm), rest⟩
  rw [show 4 * s.L + 15 = 6 + (4 * s.L + 8 + 1) by omega, run_add_of_next mix, run_succ_of_next init]
  exact run

end

theorem statusWord_ended (s : State) (w h o : Memory) (d : Nat) :
    statusWord (ended (started s) w h o d) = 0x00000002 := rfl

/-- Settles O43: the job of the other reading, and the status of an ended job. -/
theorem jobUnderTheOtherReading : Obligations.JobUnderTheOtherReading := by
  intro s h0 q
  obtain ⟨w, h, o, d, run, hashes, rest⟩ := jobFolded_ends q h0
  exact ⟨_, run, statusWord_ended s w h o d, hashes, rest⟩

/-! ### The hash as a function of the seed (R174) -/

/-- R90: one fold is a bijection of the running hash, being four of the maps of R90 in turn. -/
theorem fold_bijective (m : Word) : Function.Bijective fun h => fold h m :=
  (add32_bijective nadd).comp ((mul32_bijective (m := m5) (by decide)).comp
    ((rotl32_bijective 13 (by decide)).comp (xor32_bijective m)))

/-- R90: the finalizer is a bijection, being five of the maps of R90 in turn. -/
theorem fmix32_bijective : Function.Bijective fmix32 :=
  (xor32_shr32_bijective 16 (by decide)).comp ((mul32_bijective (m := fb) (by decide)).comp
    ((xor32_shr32_bijective 13 (by decide)).comp ((mul32_bijective (m := fa) (by decide)).comp
      (xor32_shr32_bijective 16 (by decide)))))

theorem foldl_fold_bijective (ws : List Word) :
    Function.Bijective fun h => ws.foldl (fun h w => fold h (kmix w)) h := by
  induction ws with
  | nil => exact Function.bijective_id
  | cons w ws ih => exact ih.comp (fold_bijective (kmix w))

/-- R174: with the key fixed, the hash loses nothing of the seed. -/
theorem hash1_bijective_seed (w0 : Word) (ws : List Word) : Function.Bijective (hash1 w0 ws) := by
  have hxor : Function.Bijective fun sd => xor32 (kmix w0) sd := by
    simpa only [xor32, BitVec.xor_comm (kmix w0)] using xor32_bijective (kmix w0)
  exact fmix32_bijective.comp ((xor32_bijective _).comp ((foldl_fold_bijective ws).comp hxor))

/-! ### A changed seed -/

/-- The machine with another word as the seed of group `g0`. -/
def withSeed (s : State) (g0 : Nat) (v : Word) : State := { s with seed := s.seed.write g0 v }

theorem load_withSeed_self (s : State) (g0 : Nat) (v : Word) : (withSeed s g0 v).load .seed g0 = v :=
  State.load_of_read? (Memory.read?_write_self s.seed g0 v)

theorem load_withSeed_ne (s : State) {g0 g : Nat} (v : Word) (h : g ≠ g0) :
    (withSeed s g0 v).load .seed g = s.load .seed g :=
  congrArg (Option.getD · _) (Memory.read?_write_ne s.seed v h)

/-- The keys and the layout stay, so only the seed of the group can change its hashes. -/
theorem expectedHash_withSeed (s : State) (g0 : Nat) (v : Word) (g k : Nat) :
    expectedHash (withSeed s g0 v) g k =
      hash1 (s.load .key (s.a3 g k 0)) (keyTail s g k) ((withSeed s g0 v).load .seed g) := rfl

theorem jobRequested_withSeed {s : State} (q : JobRequested s) (g0 : Nat) (v : Word) :
    JobRequested (withSeed s g0 v) where
  notBusy := q.notBusy
  command := q.command
  legal := { q.legal with }
  keys := q.keys
  seeds a ha := by
    show ((s.seed.write g0 v).read? a).isSome = true
    rw [Memory.read?_write]
    split
    · rfl
    · exact q.seeds a ha

/-- Settles O46: both jobs end with the hashes of R165; those of the group differ because `hash1` is injective in the seed,
those of the other groups have the same key and the same seed. -/
theorem seedReachesExactlyItsGroup : Obligations.SeedReachesExactlyItsGroup := by
  intro s g0 v h0 q hg0 hv
  obtain ⟨w, h, o, d, run, hashes, -⟩ := job_ends q h0
  obtain ⟨w', h', o', d', run', hashes', -⟩ := job_ends (jobRequested_withSeed q g0 v) h0
  refine ⟨_, _, run, run', fun g k hg hk => ?_⟩
  have out : o.read? (s.a2 g k) = some (expectedHash s g k) := hashes g k hg hk
  have out' : o'.read? (s.a2 g k) = some (expectedHash (withSeed s g0 v) g k) := hashes' g k hg hk
  show (g = g0 → o.read? _ ≠ o'.read? _) ∧ (g ≠ g0 → o.read? _ = o'.read? _)
  rw [out, out', expectedHash_withSeed]
  constructor
  · rintro rfl heq
    have seeds : s.load .seed g = (withSeed s g v).load .seed g :=
      (hash1_bijective_seed _ _).injective (Option.some.inj heq)
    rw [load_withSeed_self] at seeds
    exact hv ((read?_seed_of_requested q hg).trans (congrArg some seeds))
  · intro hne
    rw [load_withSeed_ne s v hne]
    rfl

end Sys2Proof.Machine
end

section
/-! PROOFS. Finalization and output (44_finalize.md): HLEN and the five avalanche uops are one in-place shape, `mapH1`, each
with an operation of its own; performed in turn, the five compose to `fmix32` (R146). HOUT is one `forall` over `OUT`. -/

namespace Sys2Proof.Machine

open Sys2Proof.Claims

/-! ### One uop over the running hashes -/

/-- R147: the length operand is the byte length reduced modulo 2^32. -/
theorem len32_eq_ofNat_mod (l : Nat) : len32 l = BitVec.ofNat 32 (4 * l % 2 ^ 32) := by
  apply BitVec.eq_of_toNat_eq
  rw [len32, narrow, BitVec.toNat_ofNat, BitVec.toNat_ofNat, Nat.mod_mod]

/-- What an xor-shift uop makes of a word (R141, R143, R145), with Lean's own operations. -/
def xorShift (r : Nat) (x : Word) : Word := x ^^^ x >>> r

/-- R83, R86: the primitives of an xor-shift uop. -/
theorem xor32_shr32_eq_xorShift (x : Word) (r : Nat) (h : r ≤ 31) : xor32 x (shr32 x r h) = xorShift r x := by
  rw [xor32, shr32_eq_ushiftRight, xorShift]

/-- Settles O25: R83 is Lean's own XOR, and the operand is that of R147. -/
theorem hlenXorsTheByteLength : Obligations.HlenXorsTheByteLength :=
  rewritesH1_of_mapH1 rfl (fun _ => rfl) fun s h => congrArg (h ^^^ ·) (len32_eq_ofNat_mod s.L)

/-- Settles O26: the operation is the xor-shift by 16. -/
theorem fsx16aXorsTheUpperHalfDown : Obligations.Fsx16aXorsTheUpperHalfDown :=
  rewritesH1_of_mapH1 rfl (fun _ => rfl) fun _ h => xor32_shr32_eq_xorShift h 16 (by decide)

/-- Settles O27: R81 is the product of words. -/
theorem fmulaMultipliesEveryHashByFa : Obligations.FmulaMultipliesEveryHashByFa :=
  rewritesH1_of_mapH1 rfl (fun _ => rfl) fun _ h => mul32_eq_mul h fa

/-- Settles O28: the operation is the xor-shift by 13. -/
theorem fsx13XorsTheHashShiftedBy13 : Obligations.Fsx13XorsTheHashShiftedBy13 :=
  rewritesH1_of_mapH1 rfl (fun _ => rfl) fun _ h => xor32_shr32_eq_xorShift h 13 (by decide)

/-- Settles O29: R81 is the product of words. -/
theorem fmulbMultipliesEveryHashByFb : Obligations.FmulbMultipliesEveryHashByFb :=
  rewritesH1_of_mapH1 rfl (fun _ => rfl) fun _ h => mul32_eq_mul h fb

/-- Settles O30: the operation is the xor-shift by 16, as in FSX16A. -/
theorem fsx16bXorsTheUpperHalfDown : Obligations.Fsx16bXorsTheUpperHalfDown :=
  rewritesH1_of_mapH1 rfl (fun _ => rfl) fun _ h => xor32_shr32_eq_xorShift h 16 (by decide)

/-! ### The avalanche uops in turn (R146) -/

theorem fmix32_eq (h : Word) :
    fmix32 h = xorShift 16 (xorShift 13 (xorShift 16 h * 0x85EBCA6B) * 0xC2B2AE35) := by
  simp only [fmix32, xor32_shr32_eq_xorShift, mul32_eq_mul, fa, fb]

/-- Settles O31: the operations of the five uops compose to `fmix32`. -/
theorem avalancheUopsAreFmix32 : Obligations.AvalancheUopsAreFmix32 := by
  intro s hh1
  obtain ⟨t, run, hashes, -, frame⟩ := fsx16aXorsTheUpperHalfDown.2 s hh1
  have shift16a : exec .fsx16a s = .next (stage s s.work t.h1 s.idx 0x51 (s.draws + 1)) := run.trans (congrArg _ frame)
  obtain ⟨h1, mula, hashes⟩ := exec_stage_of_rewritesH1 fmulaMultipliesEveryHashByFa hh1 hashes
  obtain ⟨h2, shift13, hashes⟩ := exec_stage_of_rewritesH1 fsx13XorsTheHashShiftedBy13 hh1 hashes
  obtain ⟨h3, mulb, hashes⟩ := exec_stage_of_rewritesH1 fmulbMultipliesEveryHashByFb hh1 hashes
  obtain ⟨h4, shift16b, hashes⟩ := exec_stage_of_rewritesH1 fsx16bXorsTheUpperHalfDown hh1 hashes
  refine ⟨stage s s.work h4 s.idx 0x60 (s.draws + 5), ?_, fun g k hg hk => ?_, rfl⟩
  · rw [fmixSeq, execAll_cons_of_next shift16a, execAll_cons_of_next mula, execAll_cons_of_next shift13,
      execAll_cons_of_next mulb, execAll_cons_of_next shift16b, execAll]
  · rw [fmix32_eq]
    exact hashes g k hg hk

/-! ### Output -/

/-- What a uop has done that is one `forall` over the words of `OUT`. -/
theorem out_of_forall2 {s : State} {r : Result} {f : Nat → Nat → Word} {u : Byte}
    (h : r = .next ((s.forall2 .out f).goto u)) :
    ∃ t, r = .next t ∧
      (∀ g k, g < s.S → k < s.K → t.out.read? (s.a2 g k) = some (f g k)) ∧
      (∀ a, s.words2 ≤ a → t.out.read? a = s.out.read? a) ∧
      t = { s with out := t.out, upc := u, draws := s.draws + 1 } :=
  ⟨_, h, fun _ _ => s.read?_forall2_a2 .out f, fun _ => s.read?_forall2_of_le .out f, rfl⟩

/-- Settles O32: the words fit, so HOUT is the `forall` of R152. -/
theorem houtStoresEveryHash : Obligations.HoutStoresEveryHash := by
  refine ⟨rfl, fun s hh1 hout => out_of_forall2 (State.needing_of_fits ?_)⟩
  simpa using ⟨allExist2_iff.1 hh1, allExist2_iff.1 hout⟩

end Sys2Proof.Machine
end

section
/-! PROOFS. What a job does as a whole (45_job_function.md): the next-uop function (R160), that the number of lanes affects
no step (R168), that a job always goes on (R173) and ends (R162), what it leaves in every case (R165, R173) and on what that
depends (R170, R172, R174). Where control goes, how far the end is and what the end holds are each said once. -/

namespace Sys2Proof.Machine

open Sys2Proof.Claims

/-! ### The next-uop function (R160) -/

/-- A uop that does not trap transfers control as the table says, whatever `IDX` holds: the test of HADD does not wrap. -/
theorem upc_of_exec {s t : State} {i : Instr} (hi : i.isUop = true) (h0 : s.cfg.firstWordFold = false)
    (hv : i = .check → violations s = 0) (h : exec i s = .next t) : t.upc = (controlAfter s.L s.idx.toNat i).1 := by
  have e := effect_of_exec h
  cases i
  case hash => cases hi
  case check =>
    obtain ⟨hne, -⟩ | ⟨-, rfl⟩ := e
    · exact absurd (hv rfl) hne
    · rfl
  case hinit =>
    obtain ⟨-, ⟨-, rfl⟩ | ⟨h1, -⟩⟩ := e
    · rfl
    · exact absurd (h0.symm.trans h1) (by decide)
  case endJob => cases e; rfl
  all_goals obtain ⟨rfl, -⟩ := e; rfl

/-- The table of R160 by the code in `UPC` is the table by the uop. -/
theorem nextUop_of_encode {s : State} {i : Instr} (hi : encode i = .uop s.upc) :
    nextUop s = (controlAfter s.L s.idx.toNat i).1 := by
  have hs : ∀ {u}, encode i = .uop u → s.upc = u := fun hu => Code.uop.inj (hi.symm.trans hu)
  unfold nextUop
  cases i
  case hash => cases hi
  all_goals rw [hs rfl]; rfl

/-- Settles O5, by the two outcomes of CHECK and the table for every other uop. -/
theorem nextUopFollowsTheTable : Obligations.NextUopFollowsTheTable := by
  intro s t h0 he hb h
  rw [step_of_noEvent he] at h
  obtain ⟨hstopped, -⟩ | ⟨-, i, hi, hexec⟩ := sequencerTurn_eq_next h
  · exact absurd hb hstopped
  · by_cases htrap : s.upc = 0x01 ∧ violations s ≠ 0
    · obtain ⟨hcheck, hv⟩ := htrap
      obtain rfl : i = .check := Laws.RoundTrip.check.2 i (by rw [hi, hcheck]; rfl)
      rw [exec_check_of_violations hv] at hexec
      cases hexec
      exact (if_pos ⟨hcheck, hv⟩).symm
    · have hpass : i = .check → violations s = 0 := by
        rintro rfl
        exact not_not.1 fun hv => htrap ⟨(Code.uop.inj hi).symm, hv⟩
      rw [if_neg htrap, nextUop_of_encode hi, upc_of_exec (isUop_of_encode hi) h0 hpass hexec]

/-! ### The number of lanes (R168) -/

/-- The capacity test does not read the number of lanes. -/
theorem mapNext_needing_withLanes (n : Nat) (s : State) (need : List (Space × Nat)) (t : State) :
    mapNext (withLanes n) (s.needing need t) = (withLanes n s).needing need (withLanes n t) := by
  have hshort : (withLanes n s).shortage need = s.shortage need := rfl
  rw [State.needing, State.needing, hshort]
  split <;> rfl

/-- Each array uop is one capacity test with its next state, and neither reads the number of lanes. -/
theorem exec_withLanes (n : Nat) (s : State) (i : Instr) :
    exec i (withLanes n s) = mapNext (withLanes n) (exec i s) := by
  cases i
  case hash => exact Eq.symm (apply_ite (mapNext (withLanes n)) (s.job = .busy) _ _)
  case check => exact Eq.symm (apply_ite (mapNext (withLanes n)) (violations s ≠ 0) _ _)
  case endJob => rfl
  case hinit =>
    cases h0 : s.cfg.firstWordFold with
    | false =>
      rw [exec_hinit_unfolded h0, exec_hinit_unfolded (s := withLanes n s) h0]
      exact Eq.symm (mapNext_needing_withLanes n s _ _)
    | true =>
      rw [exec_hinit_folded h0, exec_hinit_folded (s := withLanes n s) h0]
      exact Eq.symm (mapNext_needing_withLanes n s _ _)
  all_goals exact Eq.symm (mapNext_needing_withLanes n s _ _)

theorem sequencerTurn_withLanes (n : Nat) (s : State) :
    sequencerTurn (withLanes n s) = mapNext (withLanes n) (sequencerTurn s) := by
  by_cases hb : s.job = .busy
  · by_cases huop : ∃ i, encode i = .uop s.upc
    · obtain ⟨i, hi⟩ := huop
      have hdec := (decodeUop_ok_iff _ _).2 hi
      rw [sequencerTurn_of_decode hb hdec, sequencerTurn_of_decode (s := withLanes n s) hb hdec, exec_withLanes]
    · have hnone := not_exists.1 huop
      rw [sequencerTurn_of_noUop hb hnone, sequencerTurn_of_noUop (s := withLanes n s) hb hnone]
      rfl
  · rw [sequencerTurn_of_stopped hb, sequencerTurn_of_stopped (s := withLanes n s) hb]
    rfl

theorem writeRegister_withLanes (n : Nat) (s : State) (r : HostReg) (v : Word) :
    writeRegister r v (withLanes n s) = mapNext (withLanes n) (writeRegister r v s) := by
  cases r
  case cmd =>
    simp only [writeRegister, writeCommand]
    split
    · exact exec_withLanes n s _
    · rfl
  all_goals exact Eq.symm (apply_ite (mapNext (withLanes n)) (s.job = .busy) _ _)

theorem readRegister_withLanes (n : Nat) (s : State) (r : HostReg) :
    readRegister r (withLanes n s) = mapNext (withLanes n) (readRegister r s) := by
  cases r
  case status | idx => rfl
  all_goals exact Eq.symm (apply_ite (mapNext (withLanes n)) (s.job = .busy) _ _)

theorem writeSpace_withLanes (n : Nat) (s : State) (sp : Space) (a : Nat) (v : Word) :
    writeSpace sp a v (withLanes n s) = mapNext (withLanes n) (writeSpace sp a v s) := by
  rw [writeSpace, writeSpace, apply_ite (mapNext (withLanes n)), apply_ite (mapNext (withLanes n))]
  cases sp <;> rfl

theorem readInput_withLanes (n : Nat) (s : State) (sp : Space) (a : Nat) :
    readInput sp a (withLanes n s) = mapNext (withLanes n) (readInput sp a s) := by
  rw [readInput, readInput, apply_ite (mapNext (withLanes n)), apply_ite (mapNext (withLanes n))]
  rfl

theorem readOutput_withLanes (n : Nat) (s : State) (a : Nat) :
    readOutput a (withLanes n s) = mapNext (withLanes n) (readOutput a s) := by
  rw [readOutput, readOutput, apply_ite (mapNext (withLanes n)), apply_ite (mapNext (withLanes n))]
  rfl

theorem waitForEnd_withLanes (n : Nat) (s : State) : waitForEnd (withLanes n s) = withLanes n (waitForEnd s) :=
  Eq.symm (apply_ite (withLanes n) (s.job = .busy) _ _)

theorem hostAction_withLanes (n : Nat) (s : State) (a : HostAction) :
    hostAction a (withLanes n s) = mapNext (withLanes n) (hostAction a s) := by
  cases a with
  | wrr r v => exact writeRegister_withLanes n s r v
  | rdr r => exact readRegister_withLanes n s r
  | wrk a v | wrs a v | wro a v => exact writeSpace_withLanes n s _ a v
  | rdk a | rds a => exact readInput_withLanes n s _ a
  | rdo a => exact readOutput_withLanes n s a
  | wait => exact congrArg Host.Outcome.next (waitForEnd_withLanes n s)

/-- Settles O36, by the kinds of event that a step can take. -/
theorem lanesAffectNoResult : Obligations.LanesAffectNoResult := by
  intro s n
  cases he : s.events with
  | nil => rw [step_of_noEvent he, step_of_noEvent (s := withLanes n s) he, sequencerTurn_withLanes]
  | cons e rest =>
    rw [step_of_event he, step_of_event (s := withLanes n s) he]
    cases e with
    | slot => exact sequencerTurn_withLanes n { s with events := rest }
    | reset => rfl
    | host a => exact hostAction_withLanes n { s with events := rest } a

/-! ### A running job goes on (R59, R173) -/

/-- The uop in `UPC` completes: CHECK always does, and after CHECK the descriptor is legal. -/
theorem Inv.exec_completes {s : State} (I : Inv s) (hb : s.job = .busy) {i : Instr} (hi : encode i = .uop s.upc) :
    ∃ t, exec i s = .next t := by
  by_cases hv : violations s = 0
  · refine exec_completes_of_legal ((violations_eq_zero_iff s).1 hv) (isUop_of_encode hi) ?_
    rintro rfl
    exact I.control.idxHigh hb (by rw [← Code.uop.inj hi]; decide)
  · have hcheck : s.upc = 0x01 := not_not.1 fun hne => hv (I.control.checked hb hne)
    obtain rfl : i = .check := Laws.RoundTrip.check.2 i (by rw [hi, hcheck]; rfl)
    exact ⟨_, exec_check_of_violations hv⟩

/-- Settles O39: while BUSY the invariant has one of the eighteen codes in `UPC`. -/
theorem sequencerAlwaysCompletes : Obligations.SequencerAlwaysCompletes := by
  intro s I he
  by_cases hb : s.job = .busy
  · obtain ⟨i, -, hi⟩ := exists_encode_of_mem_codes _ (I.control.upcBusy hb)
    rw [step_of_busy he hb hi]
    exact I.exec_completes hb hi
  · exact ⟨s, (step_of_noEvent he).trans (sequencerTurn_of_stopped hb)⟩

/-! ### A running job ends (R162) -/

/-- How many uops a job still takes at most that stands at the code `u` with word index `j`: two stretches of fixed length,
before the fold and after it, and between them four uops for each word that is left. The code `0x00` counts as none. -/
def uopsLeftAt (l first j : Nat) (u : Byte) : Nat :=
  if u ∈ beforeFold then 4 * l + 14 - 4 * first - beforeFold.idxOf u
  else if u ∈ inFold then 4 * (l - j) + 8 - inFold.idxOf u
  else 8 - afterFold.idxOf u

theorem uopsLeftAt_of_beforeFold {l first j : Nat} {u v : Byte} (hfirst : first ≤ 1) (hu : u ∈ beforeFold)
    (hv : v ∈ beforeFold) (hlt : beforeFold.idxOf u < beforeFold.idxOf v) :
    uopsLeftAt l first j v < uopsLeftAt l first j u := by
  have hlen : beforeFold.idxOf v < 6 := List.idxOf_lt_length_of_mem hv
  rw [uopsLeftAt, if_pos hv, uopsLeftAt, if_pos hu]
  omega

theorem uopsLeftAt_of_inFold {l first j : Nat} {u v : Byte} (hu : u ∈ inFold) (hv : v ∈ inFold)
    (hlt : inFold.idxOf u < inFold.idxOf v) : uopsLeftAt l first j v < uopsLeftAt l first j u := by
  have hlate : ∀ w ∈ inFold, w ∉ beforeFold := by decide
  have hlen : inFold.idxOf v < 4 := List.idxOf_lt_length_of_mem hv
  rw [uopsLeftAt, if_neg (hlate v hv), if_pos hv, uopsLeftAt, if_neg (hlate u hu), if_pos hu]
  omega

theorem uopsLeftAt_of_afterFold {l first j : Nat} {u v : Byte} (hu : u ∈ afterFold) (hv : v ∈ afterFold ∨ v = 0x00)
    (hlt : afterFold.idxOf u < afterFold.idxOf v) : uopsLeftAt l first j v < uopsLeftAt l first j u := by
  have hlate : ∀ w ∈ afterFold ++ [0x00], w ∉ beforeFold ∧ w ∉ inFold := by decide
  obtain ⟨hu1, hu2⟩ := hlate u (List.mem_append_left _ hu)
  obtain ⟨hv1, hv2⟩ := hlate v (List.mem_append.2 (hv.imp_right List.mem_singleton.2))
  have hlen : afterFold.idxOf u < 8 := List.idxOf_lt_length_of_mem hu
  rw [uopsLeftAt, if_neg hv1, if_neg hv2, uopsLeftAt, if_neg hu1, if_neg hu2]
  omega

/-- R161: at the entry of the fold the two ways on agree. -/
theorem uopsLeftAt_foldEntry (l first j : Nat) : uopsLeftAt l first j (foldEntry l j).1 = 4 * (l - j) + 8 := by
  by_cases hj : j < l
  · rw [show (foldEntry l j).1 = 0x30 from if_pos hj]; rfl
  · rw [show (foldEntry l j).1 = 0x40 from if_neg hj, Nat.sub_eq_zero_of_le (Nat.not_lt.1 hj)]; rfl

/-- HINIT leads to the entry of the fold at its first word (R120, R135). -/
theorem uopsLeftAt_enterFold {l first j : Nat} (hfirst : first ≤ 1) (hl : 0 < l) {i : Nat} (hi : first ≤ i) :
    uopsLeftAt l first i (foldEntry l i).1 < uopsLeftAt l first j 0x20 := by
  rw [uopsLeftAt_foldEntry]
  show 4 * (l - i) + 8 < 4 * l + 14 - 4 * first - 5
  omega

/-- HADD leads to the entry of the fold at the next word (R125). -/
theorem uopsLeftAt_nextPass {l first j : Nat} (hj : j < l) :
    uopsLeftAt l first (j + 1) (foldEntry l (j + 1)).1 < uopsLeftAt l first j 0x33 := by
  rw [uopsLeftAt_foldEntry]
  show 4 * (l - (j + 1)) + 8 < 4 * (l - j) + 8 - 3
  omega

theorem State.firstFolded_le_one (s : State) : s.firstFolded ≤ 1 := by
  unfold State.firstFolded
  split <;> decide

/-- R162: how many uops the machine's running job still takes at most. -/
def State.uopsLeft (s : State) : Nat := uopsLeftAt s.L s.firstFolded s.idx.toNat s.upc

/-- Every uop takes a running job nearer to its end; END and a CHECK that traps leave no uop to perform. -/
theorem uopsLeft_of_exec {s t : State} (I : Inv s) (hb : s.job = .busy) {i : Instr} (hi : encode i = .uop s.upc)
    (h : exec i s = .next t) : t.uopsLeft < s.uopsLeft := by
  have e := effect_of_exec h
  have hs : ∀ {u}, encode i = .uop u → s.upc = u := fun hu => Code.uop.inj (hi.symm.trans hu)
  have hfirst := s.firstFolded_le_one
  show t.uopsLeft < uopsLeftAt s.L s.firstFolded s.idx.toNat s.upc
  cases i
  case hash => cases hi
  case check =>
    obtain ⟨-, rfl⟩ | ⟨-, rfl⟩ := e
    · rw [hs rfl]
      show 0 < 4 * s.L + 14 - 4 * s.firstFolded - 0
      omega
    · rw [State.uopsLeft, State.goto_upc, hs rfl]
      exact uopsLeftAt_of_beforeFold hfirst (by decide) (by decide) (by decide)
  case copy | kmul1 | krot | kmul2 =>
    obtain ⟨rfl, -⟩ := e
    rw [State.uopsLeft, State.goto_upc, hs rfl]
    exact uopsLeftAt_of_beforeFold hfirst (by decide) (by decide) (by decide)
  case hinit =>
    have hpos : 0 < s.L := L_pos_of_legal (I.control.checked hb (hs rfl ▸ by decide))
    rw [hs (u := 0x20) rfl]
    obtain ⟨-, ⟨-, rfl⟩ | ⟨h0, rfl⟩⟩ := e
    · exact uopsLeftAt_enterFold hfirst hpos (i := 1) hfirst
    · have henter := uopsLeftAt_enterFold (j := s.idx.toNat) hfirst hpos (i := 0) (Nat.le_of_eq (if_pos h0))
      rw [show (foldEntry s.L 0).1 = 0x30 from if_pos hpos] at henter
      exact henter
  case hxor | hrot | hmul5 =>
    obtain ⟨rfl, -⟩ := e
    rw [State.uopsLeft, State.goto_upc, hs rfl]
    exact uopsLeftAt_of_inFold (by decide) (by decide) (by decide)
  case hadd =>
    obtain ⟨rfl, -⟩ := e
    have hidx : s.idx.toNat < s.L := I.control.idxHigh hb (hs rfl ▸ by decide)
    have hnext := uopsLeftAt_nextPass (first := s.firstFolded) hidx
    rw [hs (u := 0x33) rfl, State.uopsLeft]
    show uopsLeftAt s.L s.firstFolded (s.idx + 1).toNat _ < _
    rw [State.toNat_idx_succ hidx]
    exact hnext
  case endJob =>
    cases e
    rw [hs rfl]
    exact uopsLeftAt_of_afterFold (v := 0x00) (by decide) (.inr rfl) (by decide)
  all_goals
    obtain ⟨rfl, -⟩ := e
    rw [State.uopsLeft, State.goto_upc, hs rfl]
    exact uopsLeftAt_of_afterFold (by decide) (.inl (by decide)) (by decide)

/-- The bound of R162 at every point of a job; under the other reading there is one pass of the fold more (R135). -/
theorem Inv.uopsLeft_le {s : State} (I : Inv s) (hb : s.job = .busy) :
    s.uopsLeft ≤ 4 * s.L + 14 ∧ (s.cfg.firstWordFold = false → s.uopsLeft ≤ 4 * s.L + 10) := by
  have hbound : s.uopsLeft ≤ 4 * s.L + 14 - 4 * s.firstFolded := by
    have hfirst := s.firstFolded_le_one
    rw [State.uopsLeft, uopsLeftAt]
    split_ifs with hbefore hfold
    · exact Nat.sub_le _ _
    · have hlow := I.control.idxLow hb hfold
      have hhigh := I.control.idxHigh hb hfold
      omega
    · omega
  refine ⟨hbound.trans (Nat.sub_le _ _), fun h0 => ?_⟩
  have hf : s.firstFolded = 1 := if_neg (by simp [h0])
  omega

/-- A running job of the invariant that is left alone ends within the uops that are left. -/
theorem Inv.ends {s : State} (I : Inv s) (he : s.events = []) (hb : s.job = .busy) :
    ∃ n t, n ≤ s.uopsLeft ∧ runSteps n s = .next t ∧ (t.job = .done ∨ t.job = .error) := by
  induction hn : s.uopsLeft using Nat.strong_induction_on generalizing s with
  | h n ih =>
    obtain ⟨i, -, hi⟩ := exists_encode_of_mem_codes _ (I.control.upcBusy hb)
    obtain ⟨t, hexec⟩ := I.exec_completes hb hi
    have hstep : step s = .next t := (step_of_busy he hb hi).trans hexec
    have hlt : t.uopsLeft < n := hn ▸ uopsLeft_of_exec I hb hi hexec
    have hlast (hend : t.job = .done ∨ t.job = .error) :
        ∃ m u, m ≤ n ∧ runSteps m s = .next u ∧ (u.job = .done ∨ u.job = .error) :=
      ⟨1, t, Nat.one_le_of_lt hlt, (run_one s).trans hstep, hend⟩
    obtain hkeep | ⟨-, -, rfl⟩ | ⟨-, rfl⟩ := job_of_exec (isUop_of_encode hi) hexec
    · have hquiet : t.events = [] := by rw [frame_of_exec (isUop_of_encode hi) hexec]; exact he
      obtain ⟨m, u, hm, hrun, hend⟩ := ih _ hlt (I.of_exec hb hi hexec) hquiet (hkeep.trans hb) rfl
      exact ⟨m + 1, u, hm.trans_lt hlt, (run_succ_of_next hstep).trans hrun, hend⟩
    · exact hlast (.inr rfl)
    · exact hlast (.inl rfl)

/-- Settles O40: the uops that are left are within the bound. -/
theorem everyJobEnds : Obligations.EveryJobEnds := by
  intro s I he hb
  obtain ⟨n, t, hn, hrun, hend⟩ := I.ends he hb
  obtain ⟨hle, hle0⟩ := I.uopsLeft_le hb
  exact ⟨n, t, hn.trans hle, fun h0 => hn.trans (hle0 h0), hrun, hend⟩

/-! ### What a job leaves (R165, R173) -/

/-- Settles O42: the job of this hardware, and what the ended state holds. -/
theorem jobLeavesHash1OfEveryKey : Obligations.JobLeavesHash1OfEveryKey := by
  intro s h0 q
  obtain ⟨w, h, o, d, run, hashes, rest⟩ := job_ends q h0
  exact ⟨_, run, statusWord_ended s w h o d, rfl, hashes, rest, rfl, rfl, rfl, rfl, rfl, rfl, rfl, rfl⟩

/-- Settles O44: HASH starts the job, and CHECK takes the exception. -/
theorem failedJobWritesNothing : Obligations.FailedJobWritesNothing := by
  intro s hb he illegal
  have hv : violations s ≠ 0 := mt (violations_eq_zero_iff s).1 illegal
  have hhash : step s = .next (started s) := (step_of_hash he).trans (if_neg hb)
  have hcheck : step (started s) = .next (raiseContractError (violations s) (started s)) :=
    (step_of_busy (i := .check) rfl rfl rfl).trans (exec_check_of_violations (s := started s) hv)
  exact ⟨violations s, hv, (run_succ_of_next hhash).trans ((run_one _).trans hcheck)⟩

/-! ### What the result depends on (R170, R172) -/

/-- Every word of `H1` and `OUT` that a job uses is that of one key (R45). -/
theorem State.exists_a2_of_lt (s : State) {a : Nat} (ha : a < s.words2) : ∃ g k, g < s.S ∧ k < s.K ∧ a = s.a2 g k :=
  have ⟨hg, hk⟩ := s.lt_of_lt_words2 ha
  ⟨a / s.K, a % s.K, hg, hk, (s.a2_divMod a).symm⟩

/-- A word that is written loads as the same value wherever it reads the same. -/
theorem State.load_congr {s s' : State} {sp : Space} {a : Nat} (hw : ((s.space sp).read? a).isSome = true)
    (hread : (s.space sp).read? a = (s'.space sp).read? a) : s.load sp a = s'.load sp a := by
  obtain ⟨v, hv⟩ := Option.isSome_iff_exists.1 hw
  rw [State.load_of_read? hv, State.load_of_read? (hread ▸ hv)]

/-- The hash of R165 is a function of the layout, the words of the key and the seed of the group. -/
theorem expectedHash_congr {s s' : State} (hK : s.K = s'.K) (hL : s.L = s'.L) {g k : Nat} (hpos : 0 < s.L)
    (hkey : ∀ l, l < s.L → s.load .key (s.a3 g k l) = s'.load .key (s.a3 g k l))
    (hseed : s.load .seed (s.a1 g) = s'.load .seed (s.a1 g)) : expectedHash s g k = expectedHash s' g k := by
  have hlayout (l : Nat) : s'.a3 g k l = s.a3 g k l := by simp only [State.a3, hK, hL]
  have htail : keyTail s g k = keyTail s' g k := by
    rw [keyTail, keyTail, ← hL]
    refine List.map_congr_left fun j hj => ?_
    rw [hlayout]
    exact hkey _ (by have := List.mem_range.1 hj; omega)
  rw [expectedHash, expectedHash, htail, hkey 0 hpos, hseed, hlayout]
  rfl

/-- Settles O45: both jobs end with the hashes of R165, and these are the same. -/
theorem jobResultDependsOnInputsOnly : Obligations.JobResultDependsOnInputsOnly := by
  intro s s' h0 h0' q q' hS hK hL hkeys hseeds
  have hS' : s.S = s'.S := congrArg BitVec.toNat hS
  have hK' : s.K = s'.K := congrArg BitVec.toNat hK
  have hL' : s.L = s'.L := congrArg BitVec.toNat hL
  obtain ⟨w, h, o, d, run, hashes, -⟩ := job_ends q h0
  obtain ⟨w', h', o', d', run', hashes', -⟩ := job_ends q' h0'
  rw [← hL'] at run'
  refine ⟨_, _, run, run', rfl, hL, fun a ha => ?_⟩
  obtain ⟨g, k, hg, hk, rfl⟩ := s.exists_a2_of_lt ha
  have out : o.read? (s.a2 g k) = some (expectedHash s g k) := hashes g k hg hk
  have out' : o'.read? (s'.a2 g k) = some (expectedHash s' g k) := hashes' g k (hS' ▸ hg) (hK' ▸ hk)
  have hlayout : s'.a2 g k = s.a2 g k := by rw [State.a2, State.a2, hK']
  have hsame : expectedHash s g k = expectedHash s' g k := by
    refine expectedHash_congr hK' hL' (L_pos_of_requested q) (fun l hl => ?_) ?_
    · have hlt := s.a3_lt hg hk hl
      exact State.load_congr (q.keys _ hlt) (hkeys _ hlt)
    · exact State.load_congr (q.seeds _ hg) (hseeds _ hg)
  rw [hlayout, ← hsame] at out'
  exact out.trans out'.symm

/-! ### The hash as a function of the words of the key (R174) -/

/-- R90: one fold is a bijection of the word folded in, too. -/
theorem fold_bijective_word (h : Word) : Function.Bijective fun m => fold h m := by
  have hxor : Function.Bijective fun m => xor32 h m := by
    simpa only [xor32, BitVec.xor_comm h] using xor32_bijective h
  exact (add32_bijective nadd).comp ((mul32_bijective (m := m5) (by decide)).comp
    ((rotl32_bijective 13 (by decide)).comp hxor))

/-- R90: the mixing of a word is a bijection. -/
theorem kmix_bijective : Function.Bijective kmix :=
  (mul32_bijective (m := c2) (by decide)).comp
    ((rotl32_bijective 15 (by decide)).comp (mul32_bijective (m := c1) (by decide)))

/-- From any point of the fold on, the hash is a bijection of the running hash. -/
theorem finish_bijective (ws : List Word) (n : Nat) :
    Function.Bijective fun h => fmix32 (xor32 (ws.foldl (fun h w => fold h (kmix w)) h) (len32 n)) :=
  fmix32_bijective.comp ((xor32_bijective (len32 n)).comp (foldl_fold_bijective ws))

theorem hash1_bijective_first (ws : List Word) (sd : Word) : Function.Bijective fun x => hash1 x ws sd :=
  (finish_bijective ws (ws.length + 1)).comp ((xor32_bijective sd).comp kmix_bijective)

theorem hash1_bijective_later (w0 : Word) (before after : List Word) (sd : Word) :
    Function.Bijective fun x => hash1 w0 (before ++ x :: after) sd := by
  simp only [hash1, List.foldl_append, List.foldl_cons, List.length_append, List.length_cons]
  exact (finish_bijective after _).comp ((fold_bijective_word _).comp kmix_bijective)

/-- Settles O49: from each input on, the hash is a chain of the maps of R90. -/
theorem hashIsBijectiveInSeedAndInEveryWord : Obligations.HashIsBijectiveInSeedAndInEveryWord :=
  ⟨hash1_bijective_seed, hash1_bijective_first, hash1_bijective_later⟩

end Sys2Proof.Machine
end

section
/-! PROOFS. The reset event (70_reset_and_hazards.md R200 to R202): the step is `resetBlock` in every state, the registers
then read as R34 says, and `OUT` is kept or forgotten by whether a job was running. -/

namespace Sys2Proof.Machine

/-- R200: reset is accepted in every state. -/
theorem step_of_reset {s : State} {rest : List Event} (he : s.events = .reset :: rest) :
    step s = .next (resetBlock { s with events := rest }) := step_of_event he

/-- R34: `STATE`, `CAUSE` and `UPC` are 0. -/
@[simp] theorem statusWord_resetBlock (s : State) : statusWord (resetBlock s) = 0 := rfl

/-- R34: `KEY_NDIM` and `SEED_NDIM` are 0. -/
@[simp] theorem ndimWord_resetBlock (s : State) : ndimWord (resetBlock s) = 0 := rfl

/-- R201: a reset that interrupts no job keeps `OUT`. -/
theorem resetBlock_out_of_stopped {s : State} (hb : s.job ≠ .busy) : (resetBlock s).out = s.out :=
  (resetBlock_out s).trans (if_neg hb)

/-- R202: a reset that interrupts a job leaves no word of `OUT` written (log 14). -/
theorem resetBlock_out_of_busy {s : State} (hb : s.job = .busy) : (resetBlock s).out = [] :=
  (resetBlock_out s).trans (if_pos hb)

/-- Settles O8: the next state is that of `resetBlock`, whose `OUT` depends on whether a job was running. -/
theorem resetEventSetsRegistersAndForgetsWork : Obligations.ResetEventSetsRegistersAndForgetsWork := by
  intro s rest he
  refine ⟨_, step_of_reset he, statusWord_resetBlock _, rfl, rfl, rfl, rfl, rfl, ndimWord_resetBlock _, rfl, rfl,
    fun a => ?forgotten, fun hb => ?stopped, fun hb a => ?interrupted, rfl, rfl, rfl⟩
  case forgotten => exact ⟨Memory.read?_nil a, Memory.read?_nil a⟩
  case stopped => exact resetBlock_out_of_stopped (s := { s with events := rest }) hb
  case interrupted =>
    rw [resetBlock_out_of_busy (s := { s with events := rest }) hb]
    exact Memory.read?_nil a

end Sys2Proof.Machine
end
